-- ==== Sys2Proof/Word.lean ====
section
/-! DEFINITION. The data types of the engine: byte, Word, Block, the expanded key, the schedule and the character
alphabet of the boundary bit string (spec/00_scope.md R10, R11; spec/30_encoding.md R86). -/

namespace Sys2Proof

/-- An unsigned integer 0..255; as a FieldElement bit `k` is the coefficient of `x^k` (R10, R110). -/
abbrev Byte := BitVec 8

/-- "4 contiguous bytes", byte 0 first; never read as an integer (R11, R54). -/
abbrev Word := Vector Byte 4

/-- Exactly 16 bytes, a 4x4 matrix filled column-major (R11, R53). A Key has the same shape (R14). -/
abbrev Block := Vector Byte 16

/-- The expanded key before reshaping: 44 Words, `W[0]` first (R28, R84). -/
abbrev Words44 := Vector Word 44

/-- A RoundKeySchedule: 11 Blocks, `RK[0]` first (R27, R84). -/
abbrev Sched := Vector Block 11

/-- The 16-bit command word `CW` (R80, R81). -/
abbrev CommandWord := BitVec 16

/-- A character of a bit string: an abstract alphabet with two distinguished members and any number of others
(R86, D18; log 22). -/
inductive BitChar where
  | zero                -- '0'
  | one                 -- '1'
  | other (tag : Nat)   -- any character that is neither
deriving DecidableEq, Repr, Inhabited

/-- The word index `WI` of key expansion: "integer 4..43 (6 bits)" (spec/10_state.md R22; log 27). -/
structure WordIndex where
  val : Nat
  ge : 4 ≤ val
  lt : val < 44
deriving DecidableEq, Repr

end Sys2Proof
end

