-- ==== Sys2Proof/Syntax.lean ====
section
/-! DEFINITION. The commands (spec/30_encoding.md R82, R83, R95): one constructor of `Instr` per row of
spec/opcode_table.json, in the table's order, carrying the fields its command WORD carries (`ROUND`, `SEL`); the operands
`A` and `B` are not in the word, they stand on the engine's ports (R80, R84), that is in `State`. -/

namespace Sys2Proof

/-- The RoundSelector: "an explicit enumerated type" (R82); the codes are in Decode.lean. -/
inductive RoundSelector where
  | full       -- FULL: none left out
  | omitSub    -- OMIT_SUB: SubstituteBytes left out
  | omitPerm   -- OMIT_PERM: PermuteRows left out
  | omitDiff   -- OMIT_DIFF: Diffuse left out
  | omitKey    -- OMIT_KEY: MixRoundKey left out
deriving DecidableEq, Repr, Inhabited

/-- A decoded command word. -/
inductive Instr where
  | gmul                                                -- multiply(a, b)                R111
  | gred                                                -- divide(a, 283)                R112
  | sbox                                                -- S[x]                          R131
  | isbox                                               -- INV_S[y]                      R134
  | rcon (j : BitVec 4)                                 -- RCON[j], legal 1..10          R137
  | shift                                               -- SHIFT[i]                      R140
  | ishift                                              -- INV_SHIFT[i]                  R142
  | subb                                                -- SubstituteBytes               R161
  | isubb                                               -- InvSubstituteBytes            R162
  | perm                                                -- PermuteRows                   R164
  | iperm                                               -- InvPermuteRows                R165
  | diff                                                -- Diffuse                       R170
  | idiff                                               -- InvDiffuse                    R172
  | mixk                                                -- MixRoundKey                   R175
  | rotw                                                -- rotateLeftByOne               R191
  | subw                                                -- SubstituteWord                R192
  | expand                                              -- expand(key)                   R193
  | reshape                                             -- reshape(words)                R195
  | rkey (r : BitVec 4)                                 -- schedule[r], any 0..15        R197
  | enc                                                 -- encrypt(plain, key)           R220
  | dec                                                 -- decrypt(cipher, key)          R223
  | pround (round : BitVec 4) (sel : RoundSelector)     -- partialRound, any round 0..15 R226
  | parse                                               -- bit string to Block           R251
  | render                                              -- Block to bit string           R252
deriving DecidableEq, Repr, Inhabited

/-- Why a command word is a reserved encoding: the cases of R92, one name each. -/
inductive Reserved where
  | zeroField          -- `ZERO != 0`
  | opcode             -- `OP` is 0x00 or 0x19..0x1F
  | selUnused          -- `SEL != 0` in a command other than PROUND
  | selCode            -- `SEL` in 5..7 in PROUND
  | roundUnused        -- `ROUND != 0` in a command other than RCON, RKEY, PROUND
  | rconIndex          -- `ROUND` outside 1..10 in RCON
deriving DecidableEq, Repr

/-- The mnemonic of each command (R83, R94). -/
def Instr.mnemonic : Instr → String
  | .gmul => "GMUL"
  | .gred => "GRED"
  | .sbox => "SBOX"
  | .isbox => "ISBOX"
  | .rcon _ => "RCON"
  | .shift => "SHIFT"
  | .ishift => "ISHIFT"
  | .subb => "SUBB"
  | .isubb => "ISUBB"
  | .perm => "PERM"
  | .iperm => "IPERM"
  | .diff => "DIFF"
  | .idiff => "IDIFF"
  | .mixk => "MIXK"
  | .rotw => "ROTW"
  | .subw => "SUBW"
  | .expand => "EXPAND"
  | .reshape => "RESHAPE"
  | .rkey _ => "RKEY"
  | .enc => "ENC"
  | .dec => "DEC"
  | .pround _ _ => "PROUND"
  | .parse => "PARSE"
  | .render => "RENDER"

/-- The two pseudo-commands (R95): they have no opcode, an assembler expands them. -/
inductive PseudoCommand where
  | ksched
  | fround (round : BitVec 4)
deriving DecidableEq, Repr

/-- What an assembler expands a pseudo-command to (R95). KSCHED hands the result of its first command to its second. -/
def PseudoCommand.expansion : PseudoCommand → List Instr
  | .ksched => [.expand, .reshape]
  | .fround r => [.pround r .full]

end Sys2Proof
end

