-- ==== Sys2Proof/WellFormed.lean ====
section
/-! DEFINITION. Which commands a command word can carry: the one restriction on a field is RCON's index
(spec/30_encoding.md R84, R92; spec/41_tables.md R137). A round of RKEY or PROUND that is out of range is NOT ill-formed:
"They decode successfully and fail at step 2" (R91). -/

namespace Sys2Proof

/-- Legal indices of the round-constant table: 1..10 (R137). -/
def rconIndexLegal (j : BitVec 4) : Bool := 1 ≤ j.toNat && j.toNat ≤ 10

/-- A command that some command word of R81 to R92 decodes to. -/
def Instr.wellFormed : Instr → Bool
  | .rcon j => rconIndexLegal j
  | .gmul | .gred | .sbox | .isbox | .shift | .ishift => true
  | .subb | .isubb | .perm | .iperm | .diff | .idiff | .mixk => true
  | .rotw | .subw | .expand | .reshape | .rkey _ => true
  | .enc | .dec | .pround _ _ | .parse | .render => true

end Sys2Proof
end

