-- ==== Sys2Proof/Decode.lean ====
section
/-! DEFINITION. Decoding a command word, total and rejecting by name, and the encoder beside it
(spec/30_encoding.md R81 to R83, R87, R92, R96). -/

namespace Sys2Proof

/-! ### The fields of format `CMD` (R81) -/

/-- `CW[4:0]`. -/
def fieldOp (w : CommandWord) : BitVec 5 := w.extractLsb' 0 5

/-- `CW[8:5]`. -/
def fieldRound (w : CommandWord) : BitVec 4 := w.extractLsb' 5 4

/-- `CW[11:9]`. -/
def fieldSel (w : CommandWord) : BitVec 3 := w.extractLsb' 9 3

/-- `CW[15:12]`. -/
def fieldZero (w : CommandWord) : BitVec 4 := w.extractLsb' 12 4

/-! ### Selector codes (R82, D6; log 9) -/

/-- The code of a selector: AESAV §3's order, the spec's default of `SEL_CODE`. -/
def selectorCode : RoundSelector → BitVec 3
  | .full => 0
  | .omitSub => 1
  | .omitPerm => 2
  | .omitDiff => 3
  | .omitKey => 4

/-- The selector of a code; 5, 6 and 7 are reserved. -/
def selectorOfCode (c : BitVec 3) : Option RoundSelector :=
  match c.toNat with
  | 0 => some .full
  | 1 => some .omitSub
  | 2 => some .omitPerm
  | 3 => some .omitDiff
  | 4 => some .omitKey
  | _ => none

/-! ### Decode -/

/-- A command that uses neither `ROUND` nor `SEL`: both must be zero (R81, R92). -/
def plainCommand (i : Instr) (w : CommandWord) : Except Reserved Instr :=
  if fieldSel w ≠ 0 then .error .selUnused
  else if fieldRound w ≠ 0 then .error .roundUnused
  else .ok i

/-- RCON: `ROUND` is the index `j`, legal 1..10; `SEL` must be zero. -/
def rconCommand (w : CommandWord) : Except Reserved Instr :=
  if fieldSel w ≠ 0 then .error .selUnused
  else if rconIndexLegal (fieldRound w) then .ok (.rcon (fieldRound w))
  else .error .rconIndex

/-- RKEY: `ROUND` is the round `r`, any value decodes (R87, R91); `SEL` must be zero. -/
def rkeyCommand (w : CommandWord) : Except Reserved Instr :=
  if fieldSel w ≠ 0 then .error .selUnused
  else .ok (.rkey (fieldRound w))

/-- PROUND: `ROUND` is the round, any value decodes (R87, R91); `SEL` is the selector code. -/
def proundCommand (w : CommandWord) : Except Reserved Instr :=
  match selectorOfCode (fieldSel w) with
  | some sel => .ok (.pround (fieldRound w) sel)
  | none => .error .selCode

/-- The opcode map (R83); every reserved word is refused by name (R92). -/
def decode (w : CommandWord) : Except Reserved Instr :=
  if fieldZero w ≠ 0 then .error .zeroField
  else match (fieldOp w).toNat with
    | 0x01 => plainCommand .gmul w
    | 0x02 => plainCommand .gred w
    | 0x03 => plainCommand .sbox w
    | 0x04 => plainCommand .isbox w
    | 0x05 => rconCommand w
    | 0x06 => plainCommand .shift w
    | 0x07 => plainCommand .ishift w
    | 0x08 => plainCommand .subb w
    | 0x09 => plainCommand .isubb w
    | 0x0A => plainCommand .perm w
    | 0x0B => plainCommand .iperm w
    | 0x0C => plainCommand .diff w
    | 0x0D => plainCommand .idiff w
    | 0x0E => plainCommand .mixk w
    | 0x0F => plainCommand .rotw w
    | 0x10 => plainCommand .subw w
    | 0x11 => plainCommand .expand w
    | 0x12 => plainCommand .reshape w
    | 0x13 => rkeyCommand w
    | 0x14 => plainCommand .enc w
    | 0x15 => plainCommand .dec w
    | 0x16 => proundCommand w
    | 0x17 => plainCommand .parse w
    | 0x18 => plainCommand .render w
    | _ => .error .opcode

/-! ### Encode -/

/-- `CW = OP | (ROUND << 5) | (SEL << 9)` with `ZERO = 0` (R81). -/
def commandWord (op : BitVec 5) (round : BitVec 4) (sel : BitVec 3) : CommandWord :=
  op.setWidth 16 ||| (round.setWidth 16 <<< 5) ||| (sel.setWidth 16 <<< 9)

/-- The command word of a command (R83, R96). -/
def encode : Instr → CommandWord
  | .gmul => commandWord 0x01 0 0
  | .gred => commandWord 0x02 0 0
  | .sbox => commandWord 0x03 0 0
  | .isbox => commandWord 0x04 0 0
  | .rcon j => commandWord 0x05 j 0
  | .shift => commandWord 0x06 0 0
  | .ishift => commandWord 0x07 0 0
  | .subb => commandWord 0x08 0 0
  | .isubb => commandWord 0x09 0 0
  | .perm => commandWord 0x0A 0 0
  | .iperm => commandWord 0x0B 0 0
  | .diff => commandWord 0x0C 0 0
  | .idiff => commandWord 0x0D 0 0
  | .mixk => commandWord 0x0E 0 0
  | .rotw => commandWord 0x0F 0 0
  | .subw => commandWord 0x10 0 0
  | .expand => commandWord 0x11 0 0
  | .reshape => commandWord 0x12 0 0
  | .rkey r => commandWord 0x13 r 0
  | .enc => commandWord 0x14 0 0
  | .dec => commandWord 0x15 0 0
  | .pround r sel => commandWord 0x16 r (selectorCode sel)
  | .parse => commandWord 0x17 0 0
  | .render => commandWord 0x18 0 0

/-! ### The opcode table's words -/

/-- The command word the low `nbits` bits of `w` make, when they fit one: a command is one 16-bit word (R80, R93), and the
engine has no memory it would be laid out in, so no byte order enters (log 25). -/
def tableWord (nbits w : Nat) : Option CommandWord :=
  let v := w % 2 ^ nbits
  if v < 2 ^ 16 then some (BitVec.ofNat 16 v) else none

/-- What the decoder reads from a command whose bits are `w`, numbered as spec/opcode_table.json numbers them. -/
def decodeTableWord (nbits w : Nat) : Option Instr :=
  match tableWord nbits w with
  | some cw => (decode cw).toOption
  | none => none

end Sys2Proof
end

