-- ==== Sys2Proof/Config.lean ====
section
/-! DEFINITION. What the spec leaves open about values: the working registers after a response and after a reset event hold
"`any value`, and unreadable" (spec/93_implementation_defined.md U9, spec/10_state.md R22, R33). Each register has a free
value of its own, a constant with no body applied to a counter, so that no proof can know or reuse it (log 2). The open
parameters `SEL_CODE` and `LEN_MAX` are taken at the spec's defaults (spec/92_eei_decisions.md; logs 8 and 9): the first in
Decode.lean, the second by lists without a bound. The constants of the design (modulus, tables, matrices: R32) are in
Machine/FieldArithmetic.lean, Machine/Tables.lean and Machine/RoundTransforms.lean. -/

namespace Sys2Proof

/-- The `n`-th free value of `STATE`. -/
opaque Config.freeState : Nat → Block

/-- The `n`-th free value of `KEYR`. -/
opaque Config.freeKeyr : Nat → Block

/-- The `n`-th free value of the schedule store `W` / `RK`. -/
opaque Config.freeStore : Nat → Words44

/-- The `n`-th free value of `TEMP`. -/
opaque Config.freeTemp : Nat → Word

/-- The `n`-th free value of `RND`, an integer 0..10. -/
opaque Config.freeRnd : Nat → Fin 11

/-- The `n`-th free value of `WI`, counted from 4: an integer 4..43 less 4. -/
opaque Config.freeWiLess4 : Nat → Fin 40

/-- The `n`-th free value of `ACC`. -/
opaque Config.freeAcc : Nat → BitVec 15

end Sys2Proof
end

