-- ==== Sys2Proof/Machine/State.lean ====
section
/-! DEFINITION. The state of one engine instance: the command being handled and its operands, the response, and the
working registers of spec/10_state.md R22. The engine has no memory, no program counter, no flags and no control registers
(R24, R25, R26, R30), and none is here. -/

namespace Sys2Proof.Machine

open Sys2Proof

/-! ### Responses (spec/30_encoding.md R80, R84; spec/60_exceptions.md R270, R271) -/

/-- The three error kinds, "all the errors the engine has" (R270). They are responses, not faults: the engine goes on. -/
inductive ErrorKind where
  | invalidBlockSize     -- a Block or Key operand that is not 16 bytes (R272)
  | invalidInputLength   -- a bit string that is not 128 characters '0'/'1' (R275)
  | invalidRoundIndex    -- a round outside 0..10 (RKEY) or 1..10 (PROUND) (R277)
deriving DecidableEq, Repr, Inhabited

/-- A result, in the shape the operation fixes (R84). -/
inductive Result where
  | byte (v : Byte)
  | idx4 (v : BitVec 4)
  | word (v : Word)
  | block (v : Block)
  | words44 (v : Words44)
  | sched (v : Sched)
  | bits128 (v : Vector BitChar 128)
deriving DecidableEq, Repr

/-- `Ok(RES)` or `Err(kind)`; an error carries the kind and nothing else (R271, R273). -/
inductive Response where
  | ok (res : Result)
  | err (kind : ErrorKind)
deriving DecidableEq, Repr

/-! ### Operand ports (spec/30_encoding.md R84, R85, R86; D24, D25; log 6) -/

/-- Port `A`: one lane per operand shape, each exactly as wide as its type; the operation fixes which lane it reads. -/
structure PortA where
  byte : Byte                -- byte operand of GMUL, SBOX, ISBOX
  idx4 : BitVec 4            -- index operand of SHIFT, ISHIFT
  u16 : BitVec 16            -- operand of GRED
  word : Word                -- operand of ROTW, SUBW
  block : List Byte          -- Block*: a length-tagged byte string of any length (R85; log 8)
  words44 : Words44          -- operand of RESHAPE
  sched : Sched              -- operand of RKEY
  bits : List BitChar        -- operand of PARSE: any length, any content (R86)
deriving DecidableEq, Repr

/-- Port `B`: the shapes a second operand has. -/
structure PortB where
  byte : Byte                -- byte operand `b` of GMUL
  block : List Byte          -- Block*: roundKey of MIXK, key of ENC, DEC, PROUND
deriving DecidableEq, Repr

/-! ### Working registers (spec/10_state.md R22) -/

/-- The working registers of one command. `RK[0..10]` is the second view of `store` (R28): see `roundKeyOf`. -/
structure Work where
  state : Block        -- STATE: the block being transformed
  keyr : Block         -- KEYR: the key operand while the schedule is derived
  store : Words44      -- W[0..43], and as 11 Blocks RK[0..10]
  temp : Word          -- TEMP: `temp` of key expansion
  rnd : Fin 11         -- RND: the round, an integer 0..10
  wi : WordIndex       -- WI: the word index, an integer 4..43
  acc : BitVec 15      -- ACC: the multiplier's accumulator
deriving DecidableEq, Repr

/-! ### The state -/

structure State where
  inFlight : Bool              -- a command has been accepted and has not responded (R300, R303)
  cw : CommandWord             -- its command word
  a : PortA                    -- its operand A, taken whole at acceptance (R306)
  b : PortB                    -- its operand B
  response : Option Response   -- the last command's response; none: no response yet
  work : Work                  -- the working registers
  tick : Nat                   -- the model's own: index of the next free value (log 3)
deriving DecidableEq, Repr

/-! ### Reset (spec/10_state.md R33, spec/70_reset_and_hazards.md R300) -/

/-- Working registers at reset: the spec leaves them unspecified; DESIGN CHOICE, unsafe (log 1): zero, and `WI` the least
value of its range. -/
def Work.reset : Work where
  state := Vector.replicate 16 0
  keyr := Vector.replicate 16 0
  store := Vector.replicate 44 (Vector.replicate 4 0)
  temp := Vector.replicate 4 0
  rnd := 0
  wi := ⟨4, by decide, by decide⟩
  acc := 0

/-- Port `A` before any command: the spec gives no value; DESIGN CHOICE, unsafe (log 7): zero and empty. -/
def PortA.reset : PortA where
  byte := 0
  idx4 := 0
  u16 := 0
  word := Vector.replicate 4 0
  block := []
  words44 := Vector.replicate 44 (Vector.replicate 4 0)
  sched := Vector.replicate 11 (Vector.replicate 16 0)
  bits := []

/-- Port `B` before any command: DESIGN CHOICE, unsafe (log 7): zero and empty. -/
def PortB.reset : PortB where
  byte := 0
  block := []

/-- The engine right after reset: idle, "no command in flight, ready to accept one" (R300), no response (R313). -/
def State.reset : State where
  inFlight := false
  cw := 0
  a := PortA.reset
  b := PortB.reset
  response := none
  work := Work.reset
  tick := 0

/-! ### How a step can stop -/

/-- There is no fault: the engine's three errors are responses after which it is "ready for the next command" (R273, R276),
and every command is otherwise total (R270). Nothing raises a fault; the type is empty (log 12). -/
inductive Fault
deriving DecidableEq, Repr

/-- Why a step has no meaning. -/
inductive Refusal where
  /-- Raised by an arm of `exec` whose command has no meaning yet (none is left). Safe. -/
  | notModelled (mnemonic : String)
  /-- Raised by `step` on a reserved command word, and by RCON on an index outside 1..10, which no word decodes to:
  "a reserved encoding is refused" (R92). The engine gives no response and no claim may be made through it. Safe. -/
  | reservedEncoding (why : Reserved)
deriving DecidableEq, Repr

end Sys2Proof.Machine
end

