-- ==== Sys2Proof/Machine/Flags.lean ====
section
/-! DEFINITION. The engine has no condition codes and no flags (spec/10_state.md R25); no command writes one. The only
status is the outcome of the command itself, with the numeric `STATUS` code of spec/60_exceptions.md R271. -/

namespace Sys2Proof.Machine

open Sys2Proof

/-- The `STATUS` code of an error kind (R271, D8). -/
def errorCode : ErrorKind → Nat
  | .invalidBlockSize => 1
  | .invalidInputLength => 2
  | .invalidRoundIndex => 3

/-- The `STATUS` code of a response: 0 for `OK` (R271, D8; log 23). -/
def statusCode : Response → Nat
  | .ok _ => 0
  | .err k => errorCode k

end Sys2Proof.Machine
end

