-- ==== Sys2Proof/Machine/Operands.lean ====
section
/-! DEFINITION. Operand forms: the length test that makes a Block of a length-tagged operand, the matrix and column views
of a Block, the port images, and the lane a result is handed on to (spec/30_encoding.md R84, R85; spec/20_memory.md R53 to
R56). -/

namespace Sys2Proof.Machine

open Sys2Proof

/-! ### Length-tagged operands (R85, R272) -/

/-- "The command first tests `n == 16` for each such operand and only then forms the 16-byte Block" (R85). Nothing is
padded or truncated (R270). -/
def formBlock (bytes : List Byte) : Option Block :=
  if h : bytes.length = 16 then some ⟨bytes.toArray, by simpa using h⟩ else none

/-! ### Views of a Block (R53, R11) -/

/-- `B[r, c] = B[r + 4c]`: row `r`, column `c` of the column-major matrix. -/
def entry (b : Block) (r c : Fin 4) : Byte := b[r.val + 4 * c.val]

/-- Column `c`: the four bytes `B[4c] .. B[4c+3]`. -/
def column (b : Block) (c : Fin 4) : Word := Vector.ofFn fun k => b[4 * c.val + k.val]

/-- Row `r`: the four bytes `B[r], B[r+4], B[r+8], B[r+12]`. -/
def row (b : Block) (r : Fin 4) : Word := Vector.ofFn fun c => b[r.val + 4 * c.val]

/-! ### Port images (R56) -/

/-- `D[127:0]`: byte `i` is `D[127-8i : 120-8i]`, byte 0 at the top. -/
def blockPort (b : Block) : BitVec 128 :=
  b[0] ++ b[1] ++ b[2] ++ b[3] ++ b[4] ++ b[5] ++ b[6] ++ b[7] ++
    b[8] ++ b[9] ++ b[10] ++ b[11] ++ b[12] ++ b[13] ++ b[14] ++ b[15]

/-- A Word seen as a 32-bit vector: `w[j]` at bits `[31-8j : 24-8j]`. -/
def wordPort (w : Word) : BitVec 32 := w[0] ++ w[1] ++ w[2] ++ w[3]

/-! ### Literals (R10, R94): hexadecimal digits, byte 0 first -/

/-- The Block written with these 32 hexadecimal digits. -/
def hexBlock (n : Nat) : Block := Vector.ofFn fun i => BitVec.ofNat 8 (n >>> (8 * (15 - i.val)))

/-- The Word written with these 8 hexadecimal digits. -/
def hexWord (n : Nat) : Word := Vector.ofFn fun j => BitVec.ofNat 8 (n >>> (8 * (3 - j.val)))

/-! ### A result as a later operand (R84, R312) -/

/-- Port `A` carrying a result in its shape's lane; the host may use an earlier result as a later operand (R312). -/
def loadA (p : PortA) : Result → PortA
  | .byte v => { p with byte := v }
  | .idx4 v => { p with idx4 := v }
  | .word v => { p with word := v }
  | .block v => { p with block := v.toList }
  | .words44 v => { p with words44 := v }
  | .sched v => { p with sched := v }
  | .bits128 v => { p with bits := v.toList }

/-- Port `B` carrying a result in its shape's lane: the shapes a second operand has are byte (GMUL) and Block (MIXK, ENC,
DEC, PROUND). A result of another shape is no command's second operand (R84). -/
def loadB (p : PortB) : Result → Option PortB
  | .byte v => some { p with byte := v }
  | .block v => some { p with block := v.toList }
  | .idx4 _ | .word _ | .words44 _ | .sched _ | .bits128 _ => none

end Sys2Proof.Machine
end

