-- ==== Sys2Proof/Machine/Ops.lean ====
section
/-! DEFINITION. The named operations every command is made of: giving a response, raising an error kind, the host's two
interactions, and reading and writing the working registers. -/

namespace Sys2Proof.Machine

open Sys2Proof

/-- The result of one step on this machine. -/
abbrev Outcome := Host.Outcome State Fault Refusal

/-! ### Ending a command -/

/-- The working registers after a response or a reset event: "`any value`, and unreadable" (U9; spec/10_state.md R22, R33):
the free values with index `n` (log 2). -/
def Work.unspecified (n : Nat) : Work where
  state := Config.freeState n
  keyr := Config.freeKeyr n
  store := Config.freeStore n
  temp := Config.freeTemp n
  rnd := Config.freeRnd n
  wi := ⟨4 + (Config.freeWiLess4 n).val, by omega, by omega⟩
  acc := Config.freeAcc n

/-- `return v`: the response is `Ok(v)` (spec/00_scope.md R12) and the working registers are dropped (spec/10_state.md R21,
R22). The ports are not written. -/
def State.respondOk (s : State) (res : Result) : State :=
  { s with
    inFlight := false
    response := some (.ok res)
    work := Work.unspecified s.tick
    tick := s.tick + 1 }

/-- `raise kind` (spec/60_exceptions.md R273): the response is `Err(kind)` with no result; nothing is saved and nothing is
changed, there is no handler, and "the engine is ready for the next command". There is no return from it (R276). -/
def State.raise (s : State) (kind : ErrorKind) : State :=
  { s with inFlight := false, response := some (.err kind) }

/-- The command goes on with these working registers. -/
def State.withWork (s : State) (w : Work) : State := { s with work := w }

/-! ### The host's two interactions (spec/70_reset_and_hazards.md R313) -/

/-- Issue a command `(CW, A, B)`: accepted when the engine is idle, its operands taken whole (R306); "a second command is
not accepted until the first has responded" (R276). The new command has no response yet (log 28). -/
def State.issue (s : State) (cw : CommandWord) (a : PortA) (b : PortB) : Option State :=
  if s.inFlight then none
  else some { s with inFlight := true, cw := cw, a := a, b := b, response := none }

/-- The reset event (R300, R301): a command in flight is dropped without a response, the engine is idle, the working
registers are unspecified. It writes nothing else (log 19). -/
def State.resetEvent (s : State) : State :=
  { s with
    inFlight := false
    response := none
    work := Work.unspecified s.tick
    tick := s.tick + 1 }

/-! ### Precondition checks (spec/60_exceptions.md R272, R274) -/

/-- A command with one Block operand, on `A`. -/
def withBlockA (s : State) (run : Block → Outcome) : Outcome :=
  match formBlock s.a.block with
  | some x => run x
  | none => .next (s.raise .invalidBlockSize)

/-- A command with two Block operands: `A` is tested first, then `B` (R274). -/
def withBlocksAB (s : State) (run : Block → Block → Outcome) : Outcome :=
  match formBlock s.a.block with
  | none => .next (s.raise .invalidBlockSize)
  | some x =>
    match formBlock s.b.block with
    | none => .next (s.raise .invalidBlockSize)
    | some y => run x y

/-! ### The working registers (spec/10_state.md R22) -/

/-- `STATE <- v`. -/
def Work.setState (w : Work) (v : Block) : Work := { w with state := v }

/-- `KEYR <- v`. -/
def Work.setKeyr (w : Work) (v : Block) : Work := { w with keyr := v }

/-- `W[i] <- v`. -/
def Work.setWord (w : Work) (i : Fin 44) (v : Word) : Work := { w with store := w.store.set i.val v }

/-- `TEMP <- v`. -/
def Work.setTemp (w : Work) (v : Word) : Work := { w with temp := v }

/-- `RND <- v`. -/
def Work.setRnd (w : Work) (v : Fin 11) : Work := { w with rnd := v }

/-- `WI <- v`. -/
def Work.setWi (w : Work) (v : WordIndex) : Work := { w with wi := v }

/-- `ACC <- v`. -/
def Work.setAcc (w : Work) (v : BitVec 15) : Work := { w with acc := v }

/-- Round key `r` of 44 Words: `RK[r][4j + k] = W[4r + j][k]` (R28, R195; log 16). -/
def roundKeyOf (words : Words44) (r : Fin 11) : Block :=
  Vector.ofFn fun i => (words[4 * r.val + i.val / 4])[i.val % 4]

/-- `RK[r]` of the schedule store. -/
def Work.roundKey (w : Work) (r : Fin 11) : Block := roundKeyOf w.store r

end Sys2Proof.Machine
end

