-- ==== Sys2Proof/Machine/BoundaryCodec.lean ====
section
/-! DEFINITION. The boundary bit-string codec PARSE, RENDER (spec/45_boundary_codec.md). -/

namespace Sys2Proof.Machine

open Sys2Proof

/-- A character that is `'0'` or `'1'`. -/
def isDigit : BitChar → Bool
  | .zero | .one => true
  | .other _ => false

/-- `val('0') = 0`, `val('1') = 1` (R251); only asked of a digit. -/
def digitValue (c : BitChar) : Nat := if c = .one then 1 else 0

/-- `chr(0) = '0'`, `chr(1) = '1'` (R252). -/
def digitChar (bit : Bool) : BitChar := if bit then .one else .zero

/-- Byte `i` of a 128-character string: `sum over k in 0..7 of val(bits[8i + k]) << (7 - k)` (R251). -/
def parseByte (bits : Vector BitChar 128) (i : Fin 16) : Byte :=
  BitVec.ofNat 8 ((List.finRange 8).map fun k => digitValue bits[8 * i.val + k.val] <<< (7 - k.val)).sum

/-- `parseBits(bits)`; no value where the length is not 128 or a character is foreign (R251). -/
def parseBits (bits : List BitChar) : Option Block :=
  if h : bits.length = 128 then
    if bits.all isDigit then some (Vector.ofFn (parseByte ⟨bits.toArray, by simpa using h⟩))
    else none
  else none

/-- `renderBits(block)`: `bits[8i + k] <- chr(bit 7-k of block[i])` (R252). -/
def renderBits (b : Block) : Vector BitChar 128 :=
  Vector.ofFn fun j => digitChar ((b[j.val / 8]).getLsbD (7 - j.val % 8))

/-- PARSE (R251): `InvalidInputLength` for a wrong length or a foreign character. -/
def execParse (s : State) : Outcome :=
  match parseBits s.a.bits with
  | some b => .next (s.respondOk (.block b))
  | none => .next (s.raise .invalidInputLength)

/-- RENDER (R252). -/
def execRender (s : State) : Outcome :=
  withBlockA s fun b => .next (s.respondOk (.bits128 (renderBits b)))

end Sys2Proof.Machine
end

