-- ==== Sys2Proof/Machine/KeySchedule.lean ====
section
/-! DEFINITION. The key schedule ROTW, SUBW, EXPAND, RESHAPE, RKEY (spec/43_key_schedule.md): the pure functions, key
expansion as it runs on `KEYR`, `W`, `TEMP` and `WI`, and the five commands. -/

namespace Sys2Proof.Machine

open Sys2Proof

/-! ### Words -/

/-- `[w[1], w[2], w[3], w[0]]` (R191). -/
def rotateLeftByOne (w : Word) : Word := #v[w[1], w[2], w[3], w[0]]

/-- `for j in 0..3: v[j] <- S[w[j]]` (R192). -/
def substituteWord (w : Word) : Word := Vector.ofFn fun j => romS w[j]

/-- `xor` of Words byte by byte (R190). -/
def xorWord (u v : Word) : Word := Vector.ofFn fun k => u[k] ^^^ v[k]

/-- `TEMP[0] <- TEMP[0] xor c`, bytes 1..3 unchanged (R193). -/
def xorFirstByte (w : Word) (c : Byte) : Word := w.set 0 (w[0] ^^^ c)

/-! ### Key expansion, pure (R193) -/

/-- `W[j] = [key[4j], key[4j+1], key[4j+2], key[4j+3]]`, `j` in 0..3 (R54). -/
def keyGroup (key : Block) (j : Fin 4) : Word := Vector.ofFn fun k => key[4 * j.val + k.val]

/-- `i div 4` of a word index with `i mod 4 == 0` runs over 1..10 (R193, R138). -/
theorem wordIndex_div_four (i : WordIndex) : 1 ≤ i.val / 4 ∧ i.val / 4 ≤ 10 := by
  have := i.ge
  have := i.lt
  omega

/-- What the step of index `i` makes of `temp` (R193): rotate, substitute, round constant when `i mod 4 == 0`. -/
def scheduleTemp (i : WordIndex) (temp : Word) : Word :=
  if i.val % 4 = 0 then
    xorFirstByte (substituteWord (rotateLeftByOne temp)) (romRcon (i.val / 4) (wordIndex_div_four i))
  else temp

/-- One pass of the loop of `expand`. -/
def expandStep (words : Words44) (i : WordIndex) : Words44 :=
  words.set i.val
    (xorWord (words[i.val - 4]'(by have := i.lt; omega))
      (scheduleTemp i (words[i.val - 1]'(by have := i.lt; omega)))) i.lt

/-- The word indices 4, 5, ..., 43. -/
def wordIndices : List WordIndex :=
  (List.finRange 40).map fun k => ⟨k.val + 4, by omega, by omega⟩

/-- The first four Words are the key's groups; the others are not written yet. -/
def keyWords (key : Block) : Words44 :=
  (List.finRange 4).foldl (fun words j => words.set j.val (keyGroup key j))
    (Vector.replicate 44 (Vector.replicate 4 0))

/-- `expand(key)` (R193). -/
def expand (key : Block) : Words44 := wordIndices.foldl expandStep (keyWords key)

/-- `reshape(words)`: round key `r` is bytes `16r .. 16r+15` of the concatenation (R195). -/
def reshape (words : Words44) : Sched := Vector.ofFn fun r => roundKeyOf words r

/-- `schedule(key) = reshape(expand(key))` (R196); the pseudo-command KSCHED computes it (R95). -/
def schedule (key : Block) : Sched := reshape (expand key)

/-- `schedule[r]` for `r` in 0..10; outside, no value: the caller raises `InvalidRoundIndex` (R197). -/
def lookupRoundKey (sched : Sched) (r : BitVec 4) : Option Block :=
  if h : r.toNat ≤ 10 then some sched[r.toNat] else none

/-! ### Key expansion on the working registers (R193) -/

/-- `for j in 0..3: W[j] <- [KEYR[4j], ...]`. -/
def Work.loadKeyWords (w : Work) : Work :=
  (List.finRange 4).foldl (fun w j => w.setWord ⟨j.val, by omega⟩ (keyGroup w.keyr j)) w

/-- One pass of the loop: `WI`, `TEMP`, then `W[WI] <- W[WI-4] xor TEMP`. -/
def Work.expandStep (w : Work) (i : WordIndex) : Work :=
  let w := w.setWi i
  let w := w.setTemp (w.store[w.wi.val - 1]'(by have := w.wi.lt; omega))
  let w := w.setTemp (scheduleTemp w.wi w.temp)
  w.setWord ⟨w.wi.val, w.wi.lt⟩ (xorWord (w.store[w.wi.val - 4]'(by have := w.wi.lt; omega)) w.temp)

/-- `KEYR <- key`, the four key Words, then `WI` in 4..43. The result stands in `W`, and as `RK` in the same store. -/
def Work.expand (w : Work) (key : Block) : Work :=
  wordIndices.foldl Work.expandStep (w.setKeyr key).loadKeyWords

/-! ### The commands -/

/-- ROTW (R191). -/
def execRotw (s : State) : Outcome := .next (s.respondOk (.word (rotateLeftByOne s.a.word)))

/-- SUBW (R192): a Word is not a Block, nothing is raised. -/
def execSubw (s : State) : Outcome := .next (s.respondOk (.word (substituteWord s.a.word)))

/-- EXPAND (R193): `InvalidBlockSize` "raised before `W[0]` is written". -/
def execExpand (s : State) : Outcome :=
  withBlockA s fun key =>
    let w := s.work.expand key
    .next ((s.withWork w).respondOk (.words44 w.store))

/-- RESHAPE (R195): any 44 Words; they go into the schedule store and are read back as 11 Blocks. -/
def execReshape (s : State) : Outcome :=
  let w := { s.work with store := s.a.words44 }
  .next ((s.withWork w).respondOk (.sched (reshape w.store)))

/-- RKEY (R197): "The index is never wrapped, clamped or taken modulo 11." -/
def execRkey (r : BitVec 4) (s : State) : Outcome :=
  match lookupRoundKey s.a.sched r with
  | some k => .next (s.respondOk (.block k))
  | none => .next (s.raise .invalidRoundIndex)

end Sys2Proof.Machine
end

