-- ==== Sys2Proof/Machine/FieldArithmetic.lean ====
section
/-! DEFINITION. Field arithmetic: GMUL and GRED (spec/40_field_arithmetic.md). `multiply` and `divide` are the spec's pure
functions (spec/00_scope.md R13); `Work.multiply` is the same computation on the register `ACC`, as the commands run it. -/

namespace Sys2Proof.Machine

open Sys2Proof

/-- The field modulus, decimal 283 = x^8+x^4+x^3+x+1 (R110). -/
def modulus : Nat := 283

/-- One pass of the reduction loop: `a xor (MOD << (msb(a) - 8))`, for `a >= 256` (R112). -/
def reducePass (a : Nat) : Nat := a ^^^ (modulus <<< (Nat.log2 a - 8))

/-- `while a >= 256` (R112), with at most `n` passes. -/
def reduceLoop : Nat → Nat → Nat
  | 0, a => a
  | n + 1, a => if a < 256 then a else reduceLoop n (reducePass a)

/-- `divide(a)`: the remainder of `a` modulo 283 (R112, C4); "at most 8 [passes] for a 16-bit `a`". -/
def divide (a : BitVec 16) : Byte := BitVec.ofNat 8 (reduceLoop 8 a.toNat)

/-- One bit of the carry-less product: `if bits[k:k] of a == 1: ACC <- ACC xor (b << k)` (R111). -/
def accumulateBit (a b : Byte) (acc : BitVec 15) (k : Nat) : BitVec 15 :=
  if a.getLsbD k then acc ^^^ (b.setWidth 15 <<< k) else acc

/-- The unreduced carry-less product of two bytes, 15 bits (R111). -/
def carrylessProduct (a b : Byte) : BitVec 15 := (List.range 8).foldl (accumulateBit a b) 0

/-- `multiply(a, b)` (R111). -/
def multiply (a b : Byte) : Byte := divide ((carrylessProduct a b).setWidth 16)

/-! ### On the register `ACC` -/

/-- `ACC <- 0`, then the eight bits of `a`. -/
def Work.accumulate (w : Work) (a b : Byte) : Work :=
  (List.range 8).foldl (fun w k => w.setAcc (accumulateBit a b w.acc k)) (w.setAcc 0)

/-- The reduction of `ACC` in place, with at most `n` passes. -/
def Work.reduceAcc : Nat → Work → Work
  | 0, w => w
  | n + 1, w =>
    if w.acc.toNat < 256 then w
    else Work.reduceAcc n (w.setAcc (BitVec.ofNat 15 (reducePass w.acc.toNat)))

/-- `multiply(a, b)` through `ACC`: the product, and the registers it leaves (R111: "writes and reads `ACC` only"). -/
def Work.multiply (w : Work) (a b : Byte) : Byte × Work :=
  let w' := Work.reduceAcc 8 (w.accumulate a b)
  (w'.acc.setWidth 8, w')

/-! ### The commands -/

/-- GMUL `a, b -> p` (R111): total, raises nothing. -/
def execGmul (s : State) : Outcome :=
  let r := s.work.multiply s.a.byte s.b.byte
  .next ((s.withWork r.2).respondOk (.byte r.1))

/-- GRED `a -> r` (R112): total on all 16-bit operands, raises nothing. The operand is 16 bits and `ACC` 15, so the
reduction does not run in `ACC` (log 17). -/
def execGred (s : State) : Outcome :=
  .next (s.respondOk (.byte (divide s.a.u16)))

end Sys2Proof.Machine
end

