-- ==== Sys2Proof/Machine/RoundTransforms.lean ====
section
/-! DEFINITION. The round transforms SUBB, ISUBB, PERM, IPERM, DIFF, IDIFF, MIXK (spec/42_round_transforms.md): the pure
functions on Blocks, the diffusion as it runs through `ACC`, and the seven commands. -/

namespace Sys2Proof.Machine

open Sys2Proof

/-! ### The pure functions -/

/-- `for i in 0..15: out[i] <- S[in[i]]` (R161). -/
def substituteBytes (b : Block) : Block := Vector.ofFn fun i => romS b[i]

/-- `for i in 0..15: out[i] <- INV_S[in[i]]` (R162). -/
def invSubstituteBytes (b : Block) : Block := Vector.ofFn fun i => romInvS b[i]

/-- `for i in 0..15: out[i] <- in[SHIFT[i]]` (R164). -/
def permuteRows (b : Block) : Block :=
  Vector.ofFn fun i => b[(romShift (BitVec.ofFin i)).toNat]'(BitVec.isLt _)

/-- `for i in 0..15: out[i] <- in[INV_SHIFT[i]]` (R165). -/
def invPermuteRows (b : Block) : Block :=
  Vector.ofFn fun i => b[(romInvShift (BitVec.ofFin i)).toNat]'(BitVec.isLt _)

/-- The forward diffusion matrix: Word `r` is the bytes of matrix row `r`, `2 3 1 1` and its rotations to the right (R170). -/
def forwardMatrix : Vector Word 4 :=
  #v[hexWord 0x02030101, hexWord 0x01020301, hexWord 0x01010203, hexWord 0x03010102]

/-- The inverse diffusion matrix: Word `r` is the bytes of matrix row `r`, `14 11 13 9` and its rotations to the right
(R172). -/
def inverseMatrix : Vector Word 4 :=
  #v[hexWord 0x0E0B0D09, hexWord 0x090E0B0D, hexWord 0x0D090E0B, hexWord 0x0B0D090E]

/-- One output byte: a matrix row times a column, "sum realized as XOR of field-multiplied terms" (R170). -/
def rowTimesColumn (m v : Word) : Byte :=
  multiply m[0] v[0] ^^^ multiply m[1] v[1] ^^^ multiply m[2] v[2] ^^^ multiply m[3] v[3]

/-- Matrix times column vector, for each of the four columns: `out[4c + r]` from matrix row `r` and column `c` (R170). -/
def mixColumns (m : Vector Word 4) (b : Block) : Block :=
  Vector.ofFn fun i => rowTimesColumn m[i.val % 4] (column b ⟨i.val / 4, by omega⟩)

/-- `Diffuse` (R170). -/
def diffuse (b : Block) : Block := mixColumns forwardMatrix b

/-- `InvDiffuse` (R172). -/
def invDiffuse (b : Block) : Block := mixColumns inverseMatrix b

/-- `for i in 0..15: out[i] <- block[i] xor roundKey[i]` (R175). -/
def mixRoundKey (b k : Block) : Block := Vector.ofFn fun i => b[i] ^^^ k[i]

/-! ### Diffusion through `ACC` -/

/-- One output byte, four `multiply` calls in order; each clears and uses `ACC` (R170, R111). -/
def Work.rowTimesColumn (w : Work) (m v : Word) : Byte × Work :=
  let p0 := w.multiply m[0] v[0]
  let p1 := p0.2.multiply m[1] v[1]
  let p2 := p1.2.multiply m[2] v[2]
  let p3 := p2.2.multiply m[3] v[3]
  (p0.1 ^^^ p1.1 ^^^ p2.1 ^^^ p3.1, p3.2)

/-- `out[i]` of the block being built, and the registers after it. -/
def Work.mixColumnsAt (m : Vector Word 4) (b : Block) (out : Block × Work) (i : Fin 16) : Block × Work :=
  let d := out.2.rowTimesColumn m[i.val % 4] (column b ⟨i.val / 4, by omega⟩)
  (out.1.set i.val d.1, d.2)

/-- The 16 output bytes, each from the OLD column; `out` is a fresh block (R160, R170). -/
def Work.mixColumns (w : Work) (m : Vector Word 4) (b : Block) : Block × Work :=
  (List.finRange 16).foldl (Work.mixColumnsAt m b) (Vector.replicate 16 0, w)

/-! ### The commands -/

/-- SUBB (R161). -/
def execSubb (s : State) : Outcome :=
  withBlockA s fun b => .next (s.respondOk (.block (substituteBytes b)))

/-- ISUBB (R162). -/
def execIsubb (s : State) : Outcome :=
  withBlockA s fun b => .next (s.respondOk (.block (invSubstituteBytes b)))

/-- PERM (R164). -/
def execPerm (s : State) : Outcome :=
  withBlockA s fun b => .next (s.respondOk (.block (permuteRows b)))

/-- IPERM (R165). -/
def execIperm (s : State) : Outcome :=
  withBlockA s fun b => .next (s.respondOk (.block (invPermuteRows b)))

/-- DIFF (R170). -/
def execDiff (s : State) : Outcome :=
  withBlockA s fun b =>
    let r := s.work.mixColumns forwardMatrix b
    .next ((s.withWork r.2).respondOk (.block r.1))

/-- IDIFF (R172). -/
def execIdiff (s : State) : Outcome :=
  withBlockA s fun b =>
    let r := s.work.mixColumns inverseMatrix b
    .next ((s.withWork r.2).respondOk (.block r.1))

/-- MIXK (R175): any 16-byte round key is accepted. -/
def execMixk (s : State) : Outcome :=
  withBlocksAB s fun b k => .next (s.respondOk (.block (mixRoundKey b k)))

end Sys2Proof.Machine
end

