-- ==== Sys2Proof/Machine/CipherEngine.lean ====
section
/-! DEFINITION. The cipher commands ENC, DEC, PROUND (spec/44_cipher_engine.md): the pure functions with the spec's named
intermediate values, the round state machine on `STATE`, `RND`, `RK` and `ACC`, and the three commands. -/

namespace Sys2Proof.Machine

open Sys2Proof

/-! ### The pure functions (R221, R224, R226) -/

/-- Rounds 1..9 of `encrypt`: `MixRoundKey(Diffuse(PermuteRows(SubstituteBytes(state))), rk)` (R220). -/
def forwardRound (st rk : Block) : Block := mixRoundKey (diffuse (permuteRows (substituteBytes st))) rk

/-- Round 10 of `encrypt`: no Diffuse (R220). -/
def finalRound (st rk : Block) : Block := mixRoundKey (permuteRows (substituteBytes st)) rk

/-- `e[r]`: `STATE` at the end of round `r` of an encryption under a schedule (R221). -/
def encState (rk : Sched) (plain : Block) : (r : Nat) → r ≤ 10 → Block
  | 0, _ => mixRoundKey plain rk[0]
  | r + 1, h =>
    if r + 1 = 10 then finalRound (encState rk plain r (by omega)) rk[10]
    else forwardRound (encState rk plain r (by omega)) rk[r + 1]

/-- `encrypt(plain, key) = e[10]` (R220, R221). -/
def encrypt (plain key : Block) : Block := encState (schedule key) plain 10 (by decide)

/-- Rounds 9..1 of `decrypt`: `InvDiffuse(MixRoundKey(InvSubstituteBytes(InvPermuteRows(state)), rk))` (R223). -/
def inverseRound (st rk : Block) : Block :=
  invDiffuse (mixRoundKey (invSubstituteBytes (invPermuteRows st)) rk)

/-- The last step of `decrypt`, with round key 0: no InvDiffuse (R223). -/
def inverseFinalRound (st rk : Block) : Block :=
  mixRoundKey (invSubstituteBytes (invPermuteRows st)) rk

/-- `d[10 - n]`: `STATE` after `n` rounds of a decryption under a schedule (R224). -/
def decStateAfter (rk : Sched) (cipher : Block) : (n : Nat) → n ≤ 10 → Block
  | 0, _ => mixRoundKey cipher rk[10]
  | n + 1, h =>
    if n + 1 = 10 then inverseFinalRound (decStateAfter rk cipher n (by omega)) rk[0]
    else inverseRound (decStateAfter rk cipher n (by omega)) rk[10 - (n + 1)]

/-- `decrypt(cipher, key) = d[0]` (R223, R224). -/
def decrypt (cipher key : Block) : Block := decStateAfter (schedule key) cipher 10 (by decide)

/-- `partialRound(state, key, round, selector)` for `round` in 1..10 (R226). -/
def partialRound (st key : Block) (round : Nat) (h : 1 ≤ round ∧ round ≤ 10) (sel : RoundSelector) : Block :=
  let st := if sel ≠ .omitSub then substituteBytes st else st
  let st := if sel ≠ .omitPerm then permuteRows st else st
  let st := if sel ≠ .omitDiff ∧ round ≠ 10 then diffuse st else st
  if sel ≠ .omitKey then mixRoundKey st (schedule key)[round] else st

/-- The pseudo-command FROUND: `partialRound(state, key, round, FULL)` (R95, R229). -/
def fullRound (st key : Block) (round : Nat) (h : 1 ≤ round ∧ round ≤ 10) : Block :=
  partialRound st key round h .full

/-! ### The round state machine on the working registers (R230) -/

/-- `STATE <- SubstituteBytes(STATE)`. -/
def Work.substituteBytes (w : Work) : Work := w.setState (Machine.substituteBytes w.state)

/-- `STATE <- InvSubstituteBytes(STATE)`. -/
def Work.invSubstituteBytes (w : Work) : Work := w.setState (Machine.invSubstituteBytes w.state)

/-- `STATE <- PermuteRows(STATE)`. -/
def Work.permuteRows (w : Work) : Work := w.setState (Machine.permuteRows w.state)

/-- `STATE <- InvPermuteRows(STATE)`. -/
def Work.invPermuteRows (w : Work) : Work := w.setState (Machine.invPermuteRows w.state)

/-- `STATE <- Diffuse(STATE)`, through `ACC`. -/
def Work.diffuse (w : Work) : Work :=
  let r := w.mixColumns forwardMatrix w.state
  r.2.setState r.1

/-- `STATE <- InvDiffuse(STATE)`, through `ACC`. -/
def Work.invDiffuse (w : Work) : Work :=
  let r := w.mixColumns inverseMatrix w.state
  r.2.setState r.1

/-- `STATE <- MixRoundKey(STATE, RK[RND])`. -/
def Work.mixRoundKey (w : Work) : Work := w.setState (Machine.mixRoundKey w.state (w.roundKey w.rnd))

/-- A round of ENC with Diffuse: `RND <- r`, then the four transforms. -/
def Work.forwardRound (w : Work) (r : Fin 11) : Work :=
  (w.setRnd r).substituteBytes.permuteRows.diffuse.mixRoundKey

/-- A round of DEC with InvDiffuse: `RND <- r`, then the four inverse transforms. -/
def Work.inverseRound (w : Work) (r : Fin 11) : Work :=
  (w.setRnd r).invPermuteRows.invSubstituteBytes.mixRoundKey.invDiffuse

/-- ENC's steps (R220); the ciphertext stands in `STATE`. -/
def Work.encrypt (w : Work) (plain key : Block) : Work :=
  let w := (w.expand key).setRnd 0
  let w := (w.setState plain).mixRoundKey
  let w := [1, 2, 3, 4, 5, 6, 7, 8, 9].foldl Work.forwardRound w
  (w.setRnd 10).substituteBytes.permuteRows.mixRoundKey

/-- DEC's steps (R223); the plaintext stands in `STATE`. -/
def Work.decrypt (w : Work) (cipher key : Block) : Work :=
  let w := (w.expand key).setRnd 10
  let w := (w.setState cipher).mixRoundKey
  let w := [9, 8, 7, 6, 5, 4, 3, 2, 1].foldl Work.inverseRound w
  (w.setRnd 0).invPermuteRows.invSubstituteBytes.mixRoundKey

/-- PROUND's steps (R226); the result stands in `STATE`. The selector is tested, and Diffuse is left out at round 10. -/
def Work.partialRound (w : Work) (st key : Block) (round : Fin 11) (sel : RoundSelector) : Work :=
  let w := ((w.expand key).setRnd round).setState st
  let w := if sel ≠ .omitSub then w.substituteBytes else w
  let w := if sel ≠ .omitPerm then w.permuteRows else w
  let w := if sel ≠ .omitDiff ∧ w.rnd ≠ 10 then w.diffuse else w
  if sel ≠ .omitKey then w.mixRoundKey else w

/-! ### The commands -/

/-- ENC `plain, key -> cipher` (R220). -/
def execEnc (s : State) : Outcome :=
  withBlocksAB s fun plain key =>
    let w := s.work.encrypt plain key
    .next ((s.withWork w).respondOk (.block w.state))

/-- DEC `cipher, key -> plain` (R223). -/
def execDec (s : State) : Outcome :=
  withBlocksAB s fun cipher key =>
    let w := s.work.decrypt cipher key
    .next ((s.withWork w).respondOk (.block w.state))

/-- PROUND `state, key, round, selector -> out` (R226): the lengths are tested before the round (R274). -/
def execPround (round : BitVec 4) (sel : RoundSelector) (s : State) : Outcome :=
  withBlocksAB s fun st key =>
    if h : 1 ≤ round.toNat ∧ round.toNat ≤ 10 then
      let w := s.work.partialRound st key ⟨round.toNat, by omega⟩ sel
      .next ((s.withWork w).respondOk (.block w.state))
    else .next (s.raise .invalidRoundIndex)

end Sys2Proof.Machine
end

