-- ==== Sys2Proof/Machine/Dispatch.lean ====
section
/-! DEFINITION. The one match from a decoded command to its meaning, one arm per command in the opcode table's order
(spec/30_encoding.md R83). -/

namespace Sys2Proof.Machine

open Sys2Proof

def exec (i : Instr) (s : State) : Host.Outcome State Fault Refusal :=
  match i with
  | .gmul => Sys2Proof.Machine.execGmul s
  | .gred => Sys2Proof.Machine.execGred s
  | .sbox => Sys2Proof.Machine.execSbox s
  | .isbox => Sys2Proof.Machine.execIsbox s
  | .rcon j => Sys2Proof.Machine.execRcon j s
  | .shift => Sys2Proof.Machine.execShift s
  | .ishift => Sys2Proof.Machine.execIshift s
  | .subb => Sys2Proof.Machine.execSubb s
  | .isubb => Sys2Proof.Machine.execIsubb s
  | .perm => Sys2Proof.Machine.execPerm s
  | .iperm => Sys2Proof.Machine.execIperm s
  | .diff => Sys2Proof.Machine.execDiff s
  | .idiff => Sys2Proof.Machine.execIdiff s
  | .mixk => Sys2Proof.Machine.execMixk s
  | .rotw => Sys2Proof.Machine.execRotw s
  | .subw => Sys2Proof.Machine.execSubw s
  | .expand => Sys2Proof.Machine.execExpand s
  | .reshape => Sys2Proof.Machine.execReshape s
  | .rkey r => Sys2Proof.Machine.execRkey r s
  | .enc => Sys2Proof.Machine.execEnc s
  | .dec => Sys2Proof.Machine.execDec s
  | .pround round sel => Sys2Proof.Machine.execPround round sel s
  | .parse => Sys2Proof.Machine.execParse s
  | .render => Sys2Proof.Machine.execRender s

end Sys2Proof.Machine
end

