-- ==== Sys2Proof/Machine/Step.lean ====
section
/-! DEFINITION. One step: the command in flight is decoded and runs to its response (spec/30_encoding.md R89; one command is
one atomic step: spec/20_memory.md R60). -/

namespace Sys2Proof.Machine

open Sys2Proof

/-- An idle engine stays as it is until the host issues a command (R300; log 10). A reserved word is refused, "nothing else
is looked at" (R89, R92). -/
def step (s : State) : Host.Outcome State Fault Refusal :=
  if s.inFlight then
    match decode s.cw with
    | .ok i => exec i s
    | .error why => .refused (.reservedEncoding why)
  else .next s

/-- `s` with the command word of a table row in flight: the host has issued it with the operands that stand on the ports
(log 11). A row wider than a command word (there is none) would change nothing. -/
def State.withFetchWord (s : State) (nbits w : Nat) : State :=
  match tableWord nbits w with
  | some cw => { s with inFlight := true, cw := cw }
  | none => s

end Sys2Proof.Machine
end

