-- ==== Sys2Proof/Machine/Programs.lean ====
section
/-! DEFINITION. What a host does with commands one after another: running one command to its response, a program as a finite
list of commands whose operands may be earlier results, and its end (spec/70_reset_and_hazards.md R312, R313;
spec/95_test_vectors.md section 11). Nothing here is part of `step`: the hand-on of a result is the host's (log 30). -/

namespace Sys2Proof.Machine

open Sys2Proof

/-! ### One command -/

/-- Issue a command on an idle engine and run it. -/
def runCommand (s : State) (cw : CommandWord) (a : PortA) (b : PortB) : Outcome :=
  match s.issue cw a b with
  | some t => step t
  | none => .next s

/-! ### Programs (R312) -/

/-- What a program puts on a port: operands written in it, or the result of an earlier line, counted from 0. -/
inductive ProgramOperand (Port : Type) where
  | given (port : Port)
  | result (line : Nat)
deriving DecidableEq, Repr

/-- One command of a program: its word and what goes on its two ports. -/
structure ProgramLine where
  cw : CommandWord
  a : ProgramOperand PortA
  b : ProgramOperand PortB
deriving DecidableEq, Repr

/-- "a finite list of commands in which later operands may be earlier results" (R312). -/
abbrev Program := List ProgramLine

/-- The result of an earlier line: none where that line has not responded, or has responded `Err`, which carries no
result (R271; log 31). -/
def resultOf (responses : List Response) (line : Nat) : Option Result :=
  match responses[line]? with
  | some (.ok res) => some res
  | _ => none

/-- The shapes of results (R84). -/
inductive Shape where
  | byte | idx4 | word | block | words44 | sched | bits
deriving DecidableEq, Repr

/-- The shape of a result. -/
def resultShape : Result → Shape
  | .byte _ => .byte
  | .idx4 _ => .idx4
  | .word _ => .word
  | .block _ => .block
  | .words44 _ => .words44
  | .sched _ => .sched
  | .bits128 _ => .bits

/-- The shape of result a command takes on port `A` (R84); none for RCON, which has no operand, and for GRED, whose 16-bit
operand is no command's result. -/
def shapeOnA : Instr → Option Shape
  | .gmul | .sbox | .isbox => some .byte
  | .gred | .rcon _ => none
  | .shift | .ishift => some .idx4
  | .subb | .isubb | .perm | .iperm | .diff | .idiff | .mixk => some .block
  | .rotw | .subw => some .word
  | .expand => some .block
  | .reshape => some .words44
  | .rkey _ => some .sched
  | .enc | .dec | .pround _ _ => some .block
  | .parse => some .bits
  | .render => some .block

/-- The shape of result a command takes on port `B` (R84); none for a command without a second operand. -/
def shapeOnB : Instr → Option Shape
  | .gmul => some .byte
  | .mixk | .enc | .dec | .pround _ _ => some .block
  | .gred | .sbox | .isbox | .rcon _ | .shift | .ishift => none
  | .subb | .isubb | .perm | .iperm | .diff | .idiff => none
  | .rotw | .subw | .expand | .reshape | .rkey _ | .parse | .render => none

/-- Port `A` of a line, after these responses. DESIGN CHOICE (log 32): a result of another shape than the command takes on
`A` is no operand, and the line does not run. -/
def operandA (i : Instr) (responses : List Response) : ProgramOperand PortA → Option PortA
  | .given a => some a
  | .result line => (resultOf responses line).bind fun res =>
      if shapeOnA i = some (resultShape res) then some (loadA PortA.reset res) else none

/-- Port `B` of a line, after these responses. DESIGN CHOICE (log 32): a result of another shape than the command takes on
`B` is no operand, and the line does not run. -/
def operandB (i : Instr) (responses : List Response) : ProgramOperand PortB → Option PortB
  | .given b => some b
  | .result line => (resultOf responses line).bind fun res =>
      if shapeOnB i = some (resultShape res) then loadB PortB.reset res else none

/-- The response a step gives, with the state it leaves; none where the step gives no response. -/
def respondedStep (s : State) : Option (State × Response) :=
  match step s with
  | .next t => t.response.map fun r => (t, r)
  | .fault _ => none
  | .refused _ => none

/-- Run one line: its operands are put together, the command is issued and runs to its response. None where the word is
reserved (R92; log 31), where an operand is not there (logs 31 and 32), and where the engine is busy. -/
def runLine (s : State) (responses : List Response) (l : ProgramLine) : Option (State × Response) :=
  match decode l.cw with
  | .error _ => none
  | .ok i =>
    match operandA i responses l.a, operandB i responses l.b with
    | some a, some b => (s.issue l.cw a b).bind respondedStep
    | _, _ => none

/-- Run the lines that are left, each after the response of the one before it ("wait for the response before the next
command to the same instance", R313). An `Err` is a response and the program goes on (R276). -/
def runLines : Program → State → List Response → Option (State × List Response)
  | [], s, responses => some (s, responses)
  | l :: rest, s, responses =>
    match runLine s responses l with
    | some (t, r) => runLines rest t (responses ++ [r])
    | none => none

/-- Run a program to its end: the state it leaves and its responses, one per line. -/
def runProgram (p : Program) (s : State) : Option (State × List Response) := runLines p s []

/-- A program "has ended when its last command has responded" (R312): as many responses as lines. -/
def programEnded (p : Program) (responses : List Response) : Bool := responses.length = p.length

end Sys2Proof.Machine
end

