-- ==== Sys2Proof/Safety.lean ====
section
/-! DEFINITION. What a run owes the host, in the terms the statements use: the response of a command as a function of its
word and operands alone (spec/10_state.md R21, spec/70_reset_and_hazards.md R303, R312), what a command that has responded
leaves, and the invariant of an engine that keeps its contract. -/

namespace Sys2Proof.Machine

open Sys2Proof

/-! ### The contract of each command -/

/-- `Ok` of what `f` makes of a 16-byte operand, else `Err(InvalidBlockSize)` (R272). -/
def blockResponse (bytes : List Byte) (f : Block → Result) : Response :=
  match formBlock bytes with
  | some x => .ok (f x)
  | none => .err .invalidBlockSize

/-- The same for two length-tagged operands; what `f` answers may be an error of its own. -/
def blocksResponse (x y : List Byte) (f : Block → Block → Response) : Response :=
  match formBlock x, formBlock y with
  | some u, some v => f u v
  | _, _ => .err .invalidBlockSize

/-- The response the spec gives a command for its operands; none where the command is no legal command (RCON outside 1..10).
It mentions no working register and nothing of an earlier command (R21, R312). -/
def responseOf (i : Instr) (a : PortA) (b : PortB) : Option Response :=
  match i with
  | .gmul => some (.ok (.byte (multiply a.byte b.byte)))
  | .gred => some (.ok (.byte (divide a.u16)))
  | .sbox => some (.ok (.byte (romS a.byte)))
  | .isbox => some (.ok (.byte (romInvS a.byte)))
  | .rcon j => if h : 1 ≤ j.toNat ∧ j.toNat ≤ 10 then some (.ok (.byte (romRcon j.toNat h))) else none
  | .shift => some (.ok (.idx4 (romShift a.idx4)))
  | .ishift => some (.ok (.idx4 (romInvShift a.idx4)))
  | .subb => some (blockResponse a.block fun x => .block (substituteBytes x))
  | .isubb => some (blockResponse a.block fun x => .block (invSubstituteBytes x))
  | .perm => some (blockResponse a.block fun x => .block (permuteRows x))
  | .iperm => some (blockResponse a.block fun x => .block (invPermuteRows x))
  | .diff => some (blockResponse a.block fun x => .block (diffuse x))
  | .idiff => some (blockResponse a.block fun x => .block (invDiffuse x))
  | .mixk => some (blocksResponse a.block b.block fun x k => .ok (.block (mixRoundKey x k)))
  | .rotw => some (.ok (.word (rotateLeftByOne a.word)))
  | .subw => some (.ok (.word (substituteWord a.word)))
  | .expand => some (blockResponse a.block fun key => .words44 (expand key))
  | .reshape => some (.ok (.sched (reshape a.words44)))
  | .rkey r =>
    some (match lookupRoundKey a.sched r with
      | some k => .ok (.block k)
      | none => .err .invalidRoundIndex)
  | .enc => some (blocksResponse a.block b.block fun p k => .ok (.block (encrypt p k)))
  | .dec => some (blocksResponse a.block b.block fun c k => .ok (.block (decrypt c k)))
  | .pround r sel =>
    some (blocksResponse a.block b.block fun st k =>
      if h : 1 ≤ r.toNat ∧ r.toNat ≤ 10 then .ok (.block (partialRound st k r.toNat h sel))
      else .err .invalidRoundIndex)
  | .parse =>
    some (match parseBits a.bits with
      | some x => .ok (.block x)
      | none => .err .invalidInputLength)
  | .render => some (blockResponse a.block fun x => .bits128 (renderBits x))

/-! ### What a command that has responded leaves -/

/-- `t` is `s` after its command responded `r`: the engine is idle, the ports are as they were (R306). Nothing is said of
the working registers, which are unspecified after an `Ok` (R22, U9). -/
def Responded (s t : State) (r : Response) : Prop :=
  t.response = some r ∧ t.inFlight = false ∧ t.cw = s.cw ∧ t.a = s.a ∧ t.b = s.b

/-- `s` after its command failed with `kind`: only the response, nothing else is changed (R273). -/
def failed (s : State) (kind : ErrorKind) : State :=
  { s with inFlight := false, response := some (.err kind) }

/-- The response a step answered, if it answered one. -/
def answer : Outcome → Option Response
  | .next t => t.response
  | .fault _ => none
  | .refused _ => none

/-! ### The invariant -/

/-- An idle engine that shows a response shows the response of the command on its ports: nothing an earlier command or a
working register held has reached it. -/
def Settled (s : State) : Prop :=
  s.inFlight = false → ∀ r, s.response = some r →
    ∃ i, decode s.cw = .ok i ∧ responseOf i s.a s.b = some r

end Sys2Proof.Machine
end

