-- ==== Sys2Proof/Certificates/Slice0/Obligations.lean ====
section
/-! DEFINITION. The statements for the provers, in the order of the spec's files. "16-byte operand" is said as
`s.a.block = x.toList` for a Block `x`; `failed s kind` is `s` with only the response changed to `Err(kind)`. Nothing here
rests on a value of a working register after a response: those are free values (log 2). -/

open Sys2Proof Sys2Proof.Machine

/-! ## Encoding (spec/30_encoding.md) -/

/-- spec/95_test_vectors.md section 12: words written out from the encoding, for every family, and reserved ones. -/
def Obligations.DecoderVectors : Prop :=
  decode 0x0001 = .ok .gmul ∧ decode 0x0002 = .ok .gred ∧
  decode 0x0025 = .ok (.rcon 1) ∧ decode 0x0145 = .ok (.rcon 10) ∧ decode 0x0007 = .ok .ishift ∧
  decode 0x000A = .ok .perm ∧ decode 0x000E = .ok .mixk ∧ decode 0x0011 = .ok .expand ∧
  decode 0x0173 = .ok (.rkey 11) ∧ decode 0x0014 = .ok .enc ∧
  decode 0x0636 = .ok (.pround 1 .omitDiff) ∧ decode 0x0016 = .ok (.pround 0 .full) ∧ decode 0x0018 = .ok .render ∧
  decode 0x0000 = .error .opcode ∧ decode 0x0019 = .error .opcode ∧ decode 0x0021 = .error .roundUnused ∧
  decode 0x0201 = .error .selUnused ∧ decode 0x0005 = .error .rconIndex ∧ decode 0x0A36 = .error .selCode ∧
  decode 0x1001 = .error .zeroField

/-- The decoder reads back every well-formed command from its word (R81, R82, R83). -/
def Obligations.DecodeOfEncode : Prop :=
  ∀ i : Instr, i.wellFormed = true → decode (encode i) = .ok i

/-- Every word the decoder accepts is the word of the command it gives, and that command is well formed: no two words
mean one command and no bit is dropped (R81, R83). -/
def Obligations.EncodeOfDecode : Prop :=
  ∀ (w : CommandWord) (i : Instr), decode w = .ok i → encode i = w ∧ i.wellFormed = true

/-- R83: the match and mask of every row of the opcode map. -/
def Obligations.OpcodeMapRows : Prop :=
  ∀ w : CommandWord,
    (decode w = .ok .gmul ↔ w &&& 0xFFFF = 0x0001) ∧ (decode w = .ok .gred ↔ w &&& 0xFFFF = 0x0002) ∧
    (decode w = .ok .sbox ↔ w &&& 0xFFFF = 0x0003) ∧ (decode w = .ok .isbox ↔ w &&& 0xFFFF = 0x0004) ∧
    (w &&& 0xFE1F = 0x0005 ↔ (∃ j, decode w = .ok (.rcon j)) ∨ decode w = .error .rconIndex) ∧
    (decode w = .ok .shift ↔ w &&& 0xFFFF = 0x0006) ∧ (decode w = .ok .ishift ↔ w &&& 0xFFFF = 0x0007) ∧
    (decode w = .ok .subb ↔ w &&& 0xFFFF = 0x0008) ∧ (decode w = .ok .isubb ↔ w &&& 0xFFFF = 0x0009) ∧
    (decode w = .ok .perm ↔ w &&& 0xFFFF = 0x000A) ∧ (decode w = .ok .iperm ↔ w &&& 0xFFFF = 0x000B) ∧
    (decode w = .ok .diff ↔ w &&& 0xFFFF = 0x000C) ∧ (decode w = .ok .idiff ↔ w &&& 0xFFFF = 0x000D) ∧
    (decode w = .ok .mixk ↔ w &&& 0xFFFF = 0x000E) ∧ (decode w = .ok .rotw ↔ w &&& 0xFFFF = 0x000F) ∧
    (decode w = .ok .subw ↔ w &&& 0xFFFF = 0x0010) ∧ (decode w = .ok .expand ↔ w &&& 0xFFFF = 0x0011) ∧
    (decode w = .ok .reshape ↔ w &&& 0xFFFF = 0x0012) ∧
    (w &&& 0xFE1F = 0x0013 ↔ ∃ r, decode w = .ok (.rkey r)) ∧
    (decode w = .ok .enc ↔ w &&& 0xFFFF = 0x0014) ∧ (decode w = .ok .dec ↔ w &&& 0xFFFF = 0x0015) ∧
    (w &&& 0xF01F = 0x0016 ↔ (∃ r sel, decode w = .ok (.pround r sel)) ∨ decode w = .error .selCode) ∧
    (decode w = .ok .parse ↔ w &&& 0xFFFF = 0x0017) ∧ (decode w = .ok .render ↔ w &&& 0xFFFF = 0x0018)

/-- R92: exactly the reserved words decode to nothing, and a step on one is refused: it gives no response. -/
def Obligations.ReservedWordsRefused : Prop :=
  ∀ w : CommandWord,
    let op := w.toNat % 32
    let round := w.toNat / 32 % 16
    let sel := w.toNat / 512 % 8
    ((w.toNat / 4096 ≠ 0 ∨ op = 0x00 ∨ 0x19 ≤ op ∨ (sel ≠ 0 ∧ op ≠ 0x16) ∨ (5 ≤ sel ∧ op = 0x16) ∨
        (round ≠ 0 ∧ op ≠ 0x05 ∧ op ≠ 0x13 ∧ op ≠ 0x16) ∨ (op = 0x05 ∧ ¬ (1 ≤ round ∧ round ≤ 10))) ↔
      ∃ why, decode w = .error why) ∧
    ∀ (why : Reserved) (s : State), decode w = .error why → s.inFlight = true → s.cw = w →
      step s = .refused (.reservedEncoding why)

/-- R96: the worked encodings of the free fields, with what the two illegal rounds execute to. -/
def Obligations.WorkedEncodings : Prop :=
  (∀ j : BitVec 4, encode (.rcon j) = 0x0005 ||| (j.setWidth 16 <<< 5)) ∧
  encode (.rcon 1) = 0x0025 ∧ encode (.rcon 10) = 0x0145 ∧
  (∀ r : BitVec 4, encode (.rkey r) = 0x0013 ||| (r.setWidth 16 <<< 5)) ∧
  encode (.rkey 0) = 0x0013 ∧ encode (.rkey 10) = 0x0153 ∧ encode (.rkey 11) = 0x0173 ∧
  decode 0x0173 = .ok (.rkey 11) ∧ (∀ s : State, exec (.rkey 11) s = .next (failed s .invalidRoundIndex)) ∧
  (∀ (round : BitVec 4) (sel : RoundSelector), encode (.pround round sel) =
    0x0016 ||| (round.setWidth 16 <<< 5) ||| ((selectorCode sel).setWidth 16 <<< 9)) ∧
  encode (.pround 1 .full) = 0x0036 ∧ encode (.pround 1 .omitDiff) = 0x0636 ∧
  encode (.pround 10 .omitKey) = 0x0956 ∧ encode (.pround 0 .full) = 0x0016 ∧
  decode 0x0016 = .ok (.pround 0 .full) ∧
  (∀ (s : State) (x y : Block), s.a.block = x.toList → s.b.block = y.toList →
    exec (.pround 0 .full) s = .next (failed s .invalidRoundIndex)) ∧
  decode 0x0A36 = .error .selCode

/-! ## The step, the host and the whole machine (spec/10_state.md, 30, 60, 70) -/

/-- A step with a command in flight runs the decoded command and does nothing around it (R89). The second clause, what a
step of an idle engine is, is the model's choice (log 10). -/
def Obligations.StepRunsDecodedCommand : Prop :=
  (∀ (s : State) (i : Instr), s.inFlight = true → decode s.cw = .ok i → step s = exec i s) ∧
  (∀ s : State, s.inFlight = false → step s = .next s)

/-- The engine right after reset is idle with no response, and accepts any command (R33, R300). -/
def Obligations.ResetIsIdle : Prop :=
  State.reset.inFlight = false ∧ State.reset.response = none ∧
  ∀ (cw : CommandWord) (a : PortA) (b : PortB), ∃ t, State.reset.issue cw a b = some t ∧
    t.inFlight = true ∧ t.cw = cw ∧ t.a = a ∧ t.b = b ∧ t.response = none

/-- A command is accepted exactly when none is in flight (R276, R313), its word and operands taken whole (R306). -/
def Obligations.IssueOnlyWhenIdle : Prop :=
  ∀ (s : State) (cw : CommandWord) (a : PortA) (b : PortB),
    (s.inFlight = true → s.issue cw a b = none) ∧
    (s.inFlight = false → ∃ t, s.issue cw a b = some t ∧ t.inFlight = true ∧ t.cw = cw ∧ t.a = a ∧ t.b = b)

/-- R301: a command in flight at reset gives no response, and re-issued it answers as if the dropped one had never been. -/
def Obligations.ResetDropsCommand : Prop :=
  ∀ s : State, s.resetEvent.inFlight = false ∧ s.resetEvent.response = none ∧
    step s.resetEvent = .next s.resetEvent ∧
    ∀ (cw : CommandWord) (a : PortA) (b : PortB),
      answer (runCommand s.resetEvent cw a b) = answer (runCommand State.reset cw a b)

/-- R302: no command has to come first; the first command after reset answers as the same command at any other time. -/
def Obligations.FirstCommandLikeAnyOther : Prop :=
  ∀ (s : State) (cw : CommandWord) (a : PortA) (b : PortB), s.inFlight = false →
    answer (runCommand State.reset cw a b) = answer (runCommand s cw a b) ∧
    (∀ i, decode cw = .ok i → (answer (runCommand State.reset cw a b)).isSome = true)

/-- R21: nothing persists: the response depends on the command and its operands alone, not on any working register, earlier
response or free value. -/
def Obligations.ResponseOfCommandAlone : Prop :=
  ∀ (i : Instr) (s t : State), s.a = t.a → s.b = t.b → answer (exec i s) = answer (exec i t)

/-- Every command, run on the working registers, answers the response the spec's pure functions give (R13, R62, R312). -/
def Obligations.EveryCommandMeetsContract : Prop :=
  ∀ (i : Instr) (s : State), i.wellFormed = true →
    ∃ t r, responseOf i s.a s.b = some r ∧ exec i s = .next t ∧ Responded s t r

/-- An accepted command always responds, once: one step gives a response and leaves the engine idle (R231, R303). -/
def Obligations.EveryCommandResponds : Prop :=
  ∀ (s : State) (i : Instr), s.inFlight = true → decode s.cw = .ok i →
    ∃ t r, step s = .next t ∧ Responded s t r ∧ step t = .next t

/-- The frame of all 24 commands: a next state has the same word and operands on its ports, is idle, and shows a response. -/
def Obligations.CommandFrame : Prop :=
  ∀ (i : Instr) (s t : State), exec i s = .next t →
    t.cw = s.cw ∧ t.a = s.a ∧ t.b = s.b ∧ t.inFlight = false ∧ t.response.isSome = true

/-- The invariant: an idle engine's response is that of the command on its ports. -/
def Obligations.SettledKeptByStep : Prop :=
  ∀ s t : State, Settled s → step s = .next t → Settled t

/-- It holds at reset. -/
def Obligations.SettledAtReset : Prop := Settled State.reset

/-- Both of the host's interactions keep it. -/
def Obligations.SettledKeptByHost : Prop :=
  (∀ (s t : State) (cw : CommandWord) (a : PortA) (b : PortB), Settled s → s.issue cw a b = some t → Settled t) ∧
  (∀ s : State, Settled s → Settled s.resetEvent)

/-! ## Errors (spec/60_exceptions.md) -/

/-- R273: a command that fails has had no effect at all: every port, working register and the model's counter are as they
were, only the response is the error, and the engine accepts the next command. That the working registers are as they were
is the model's reading of "nothing is changed" (log 4). -/
def Obligations.ErrorLeavesNoTrace : Prop :=
  ∀ (i : Instr) (s t : State) (k : ErrorKind), exec i s = .next t → t.response = some (.err k) →
    t.inFlight = false ∧ t.cw = s.cw ∧ t.a = s.a ∧ t.b = s.b ∧ t.work = s.work ∧ t.tick = s.tick ∧
    ∀ (cw : CommandWord) (a : PortA) (b : PortB), (t.issue cw a b).isSome = true

/-- R271: the codes, and which command raises which kind; ten commands raise nothing. -/
def Obligations.ErrorCodesAndRaisers : Prop :=
  (∀ r : Result, statusCode (.ok r) = 0) ∧ statusCode (.err .invalidBlockSize) = 1 ∧
  statusCode (.err .invalidInputLength) = 2 ∧ statusCode (.err .invalidRoundIndex) = 3 ∧
  ∀ (i : Instr) (s t : State) (k : ErrorKind), exec i s = .next t → t.response = some (.err k) →
    (k = .invalidBlockSize ∧
      (i = .subb ∨ i = .isubb ∨ i = .perm ∨ i = .iperm ∨ i = .diff ∨ i = .idiff ∨ i = .mixk ∨ i = .expand ∨
        i = .enc ∨ i = .dec ∨ (∃ r sel, i = .pround r sel) ∨ i = .render)) ∨
    (k = .invalidInputLength ∧ i = .parse) ∨
    (k = .invalidRoundIndex ∧ ((∃ r, i = .rkey r) ∨ ∃ r sel, i = .pround r sel))

/-- R272: `InvalidBlockSize` exactly for a Block or Key operand of another length than 16; Word, Words44 and Sched operands
are not tested. -/
def Obligations.InvalidBlockSizeExactly : Prop :=
  ∀ (i : Instr) (s : State),
    exec i s = .next (failed s .invalidBlockSize) ↔
      ((i = .subb ∨ i = .isubb ∨ i = .perm ∨ i = .iperm ∨ i = .diff ∨ i = .idiff ∨ i = .expand ∨ i = .render) ∧
        s.a.block.length ≠ 16) ∨
      ((i = .mixk ∨ i = .enc ∨ i = .dec ∨ ∃ r sel, i = .pround r sel) ∧
        (s.a.block.length ≠ 16 ∨ s.b.block.length ≠ 16))

/-- R275: `InvalidInputLength` exactly for PARSE on a string that is not 128 characters or has a foreign character. -/
def Obligations.InvalidInputLengthExactly : Prop :=
  ∀ (i : Instr) (s : State),
    exec i s = .next (failed s .invalidInputLength) ↔
      i = .parse ∧ (s.a.bits.length ≠ 128 ∨ ∃ c ∈ s.a.bits, c ≠ .zero ∧ c ≠ .one)

/-- R277: `InvalidRoundIndex` exactly for RKEY above 10 and for PROUND outside 1..10; the lengths come first (R274). -/
def Obligations.InvalidRoundIndexExactly : Prop :=
  ∀ (i : Instr) (s : State),
    exec i s = .next (failed s .invalidRoundIndex) ↔
      (∃ r : BitVec 4, i = .rkey r ∧ 10 < r.toNat) ∨
      (∃ (r : BitVec 4) (sel : RoundSelector), i = .pround r sel ∧ s.a.block.length = 16 ∧ s.b.block.length = 16 ∧
        (r.toNat < 1 ∨ 10 < r.toNat))

/-- R274: of a PROUND's checks the lengths come first, `A` then `B`, then the round: with a wrong length and a wrong round
it reports `InvalidBlockSize`. -/
def Obligations.ProundCheckOrder : Prop :=
  ∀ (round : BitVec 4) (sel : RoundSelector) (s : State),
    (s.a.block.length ≠ 16 → exec (.pround round sel) s = .next (failed s .invalidBlockSize)) ∧
    (s.a.block.length = 16 → s.b.block.length ≠ 16 →
      exec (.pround round sel) s = .next (failed s .invalidBlockSize)) ∧
    (s.a.block.length = 16 → s.b.block.length = 16 → ¬ (1 ≤ round.toNat ∧ round.toNat ≤ 10) →
      exec (.pround round sel) s = .next (failed s .invalidRoundIndex))

/-! ## Field arithmetic (spec/40_field_arithmetic.md) -/

/-- R111: GMUL, with the encoding, the register it works in, the free order of the bits, the corner cases and the worked
example (the spec derives the order, the corner cases and the steps of the example from the rule itself). -/
def Obligations.GmulResult : Prop :=
  decode 0x0001 = .ok .gmul ∧
  (∀ s : State, ∃ t, exec .gmul s = .next t ∧ Responded s t (.ok (.byte (multiply s.a.byte s.b.byte)))) ∧
  (∀ (w : Work) (a b : Byte), ∃ c, w.multiply a b = (multiply a b, w.setAcc c)) ∧
  (∀ (a b : Byte) (l : List Nat), l.Perm (List.range 8) →
    multiply a b = divide ((l.foldl (fun acc k => if a.getLsbD k then acc ^^^ (b.setWidth 15 <<< k) else acc)
      (0 : BitVec 15)).setWidth 16)) ∧
  (∀ b : Byte, multiply 0 b = 0 ∧ multiply b 0 = 0 ∧ multiply b 1 = b ∧ multiply 1 b = b) ∧
  carrylessProduct 0xFF 0xFF = 0x5555 ∧ (∀ a b : Byte, (carrylessProduct a b).toNat ≤ 0x7FFF) ∧
  carrylessProduct 0x57 0x83 = 0x2B79 ∧ multiply 0x57 0x83 = 0xC1

/-- R112: GRED is the reduction loop run until the value is below 256: it is total, each pass clears the highest set bit
and sets none above it, 8 passes do for 16 bits and 7 for 15; with the corner cases and the worked example. What a pass does to the bits, the
numbers of passes and the worked example are inferences the spec marks as its own, from R112. -/
def Obligations.GredResult : Prop :=
  decode 0x0002 = .ok .gred ∧
  (∀ s : State, ∃ t, exec .gred s = .next t ∧ Responded s t (.ok (.byte (divide s.a.u16)))) ∧
  (∀ a : BitVec 16, (a.toNat < 256 → (divide a).toNat = a.toNat) ∧
    (256 ≤ a.toNat → divide a = divide (a ^^^ ((283 : BitVec 16) <<< (Nat.log2 a.toNat - 8))))) ∧
  (∀ a : Nat, 256 ≤ a → reducePass a = a ^^^ (283 <<< (Nat.log2 a - 8)) ∧ reducePass a < 2 ^ Nat.log2 a) ∧
  (∀ a : Nat, a < 2 ^ 16 → reduceLoop 8 a < 256) ∧ (∀ a : Nat, a < 2 ^ 15 → reduceLoop 7 a < 256) ∧
  divide 0 = 0 ∧ divide 0x100 = 0x1B ∧ divide 0x11B = 0 ∧ divide 0xFFFF = 0x35 ∧
  reducePass 0x2B79 = 0x0819 ∧ reducePass 0x0819 = 0x00C1 ∧ divide 0x2B79 = 0xC1

/-- R113: `multiply` is commutative, distributes over XOR, has 1 as identity, and for fixed nonzero `b` is a bijection. -/
def Obligations.MultiplyLaws : Prop :=
  (∀ a b : Byte, multiply a b = multiply b a) ∧
  (∀ a b c : Byte, multiply a (b ^^^ c) = multiply a b ^^^ multiply a c) ∧
  (∀ a : Byte, multiply a 1 = a) ∧
  (∀ b : Byte, b ≠ 0 → Function.Bijective fun a => multiply a b)

/-- R115: the reduction is a fixed XOR network. -/
def Obligations.ReductionNetwork : Prop :=
  let red (k : Nat) : BitVec 8 := divide ((1 : BitVec 16) <<< k)
  (red 8 = 0x1B ∧ red 9 = 0x36 ∧ red 10 = 0x6C ∧ red 11 = 0xD8 ∧
    red 12 = 0xAB ∧ red 13 = 0x4D ∧ red 14 = 0x9A ∧ red 15 = 0x2F) ∧
  ∀ a : BitVec 16, divide a =
    ([8, 9, 10, 11, 12, 13, 14, 15].foldl (fun acc k => if a.getLsbD k then acc ^^^ red k else acc) (a.setWidth 8))

/-- R116: multiplication by the constants of the two matrices. -/
def Obligations.MatrixConstantProducts : Prop :=
  ∀ b : Byte,
    let t2 := multiply 2 b
    let t4 := multiply 2 t2
    let t8 := multiply 2 t4
    multiply 1 b = b ∧ t2 = (b <<< 1) ^^^ (if b.getLsbD 7 then 0x1B else 0) ∧ multiply 3 b = t2 ^^^ b ∧
    multiply 9 b = t8 ^^^ b ∧ multiply 11 b = t8 ^^^ t2 ^^^ b ∧ multiply 13 b = t8 ^^^ t4 ^^^ b ∧
    multiply 14 b = t8 ^^^ t4 ^^^ t2

/-! ## Constant tables (spec/41_tables.md) -/

/-- SBOX and ISBOX (R131, R134), with encodings, corner cases and worked examples. That S has no fixed point and no
complement point is an inference the spec marks as its own, from R132. -/
def Obligations.SubstitutionLookups : Prop :=
  decode 0x0003 = .ok .sbox ∧ decode 0x0004 = .ok .isbox ∧
  (∀ s : State, ∃ t, exec .sbox s = .next t ∧ Responded s t (.ok (.byte (romS s.a.byte)))) ∧
  (∀ s : State, ∃ t, exec .isbox s = .next t ∧ Responded s t (.ok (.byte (romInvS s.a.byte)))) ∧
  romS 0x00 = 0x63 ∧ romS 0xFF = 0x16 ∧ (∀ x : Byte, romS x ≠ x ∧ romS x ≠ x ^^^ 0xFF) ∧ romS 0x53 = 0xED ∧
  romInvS 0x63 = 0x00 ∧ romInvS 0x00 = 0x52 ∧ romInvS 0x16 = 0xFF ∧ romInvS 0xED = 0x53

/-- The invariants of the two pairs of tables (R136, R143), in both compositions. The compositions `S` after `INV_S` and
`SHIFT` after `INV_SHIFT` are inferences the spec marks as its own, from R136 and R143. -/
def Obligations.TablesAreInverse : Prop :=
  (∀ x : Byte, romInvS (romS x) = x) ∧ (∀ y : Byte, romS (romInvS y) = y) ∧
  (∀ i : BitVec 4, romInvShift (romShift i) = i) ∧ (∀ i : BitVec 4, romShift (romInvShift i) = i)

/-- R133: every entry of the S listing is the affine map of the field inverse; `inv(x)` exists and is unique. -/
def Obligations.SboxIsAffineOfInverse : Prop :=
  let aff (b : Byte) : Byte :=
    b ^^^ b.rotateLeft 1 ^^^ b.rotateLeft 2 ^^^ b.rotateLeft 3 ^^^ b.rotateLeft 4 ^^^ 0x63
  romS 0 = aff 0 ∧
  (∀ x : Byte, x ≠ 0 → ∃ y, multiply x y = 1 ∧ (∀ z, multiply x z = 1 → z = y) ∧ romS x = aff y) ∧
  multiply 0x53 0xCA = 1 ∧ aff 0xCA = 0xED ∧ multiply 0x01 0x01 = 1 ∧ aff 0x01 = 0x7C ∧ aff 0x00 = 0x63

/-- RCON on its legal indices and the reserved ones (R137), and the ten entries (R138). The recurrence of the last clause
is an inference the spec marks as its own, from R111. -/
def Obligations.RoundConstants : Prop :=
  (∀ (j : BitVec 4) (h : 1 ≤ j.toNat ∧ j.toNat ≤ 10),
    decode (0x0005 ||| (j.setWidth 16 <<< 5)) = .ok (.rcon j) ∧
    ∀ s : State, ∃ t, exec (.rcon j) s = .next t ∧ Responded s t (.ok (.byte (romRcon j.toNat h)))) ∧
  (∀ j : BitVec 4, ¬ (1 ≤ j.toNat ∧ j.toNat ≤ 10) →
    decode (0x0005 ||| (j.setWidth 16 <<< 5)) = .error .rconIndex) ∧
  ((List.finRange 10).map fun k => romRcon (k.val + 1) ⟨by omega, by omega⟩) =
    [0x01, 0x02, 0x04, 0x08, 0x10, 0x20, 0x40, 0x80, 0x1B, 0x36] ∧
  ∀ (j : Nat) (h : 1 ≤ j ∧ j ≤ 9), romRcon (j + 1) ⟨by omega, by omega⟩ = multiply 2 (romRcon j ⟨h.1, by omega⟩)

/-- R140, R141, R142: SHIFT and ISHIFT, with encodings, contents, closed forms and corner cases; the two forms modulo
16 are an inference the spec marks as its own, from R141. -/
def Obligations.ShiftLookups : Prop :=
  decode 0x0006 = .ok .shift ∧ decode 0x0007 = .ok .ishift ∧
  (∀ s : State, ∃ t, exec .shift s = .next t ∧ Responded s t (.ok (.idx4 (romShift s.a.idx4)))) ∧
  (∀ s : State, ∃ t, exec .ishift s = .next t ∧ Responded s t (.ok (.idx4 (romInvShift s.a.idx4)))) ∧
  (∀ i : BitVec 4,
    (romShift i).toNat = i.toNat % 4 + 4 * ((i.toNat / 4 + i.toNat % 4) % 4) ∧
    (romInvShift i).toNat = i.toNat % 4 + 4 * ((i.toNat / 4 + 4 - i.toNat % 4) % 4) ∧
    (romShift i).toNat = 5 * i.toNat % 16 ∧ (romInvShift i).toNat = 13 * i.toNat % 16) ∧
  (∀ i : BitVec 4, i.toNat % 4 = 0 → romShift i = i ∧ romInvShift i = i) ∧
  (∀ i : BitVec 4, i.toNat % 4 = 2 → romShift i = romInvShift i) ∧
  romShift 1 = 5 ∧ romInvShift 5 = 1

/-! ## Round transforms (spec/42_round_transforms.md) -/

/-- R161, R162: SUBB and ISUBB. -/
def Obligations.SubstituteCommands : Prop :=
  decode 0x0008 = .ok .subb ∧ decode 0x0009 = .ok .isubb ∧
  (∀ (s : State) (x : Block), s.a.block = x.toList →
    ∃ t y, exec .subb s = .next t ∧ Responded s t (.ok (.block y)) ∧ ∀ i : Fin 16, y[i] = romS x[i]) ∧
  (∀ (s : State) (x : Block), s.a.block = x.toList →
    ∃ t y, exec .isubb s = .next t ∧ Responded s t (.ok (.block y)) ∧ ∀ i : Fin 16, y[i] = romInvS x[i]) ∧
  (∀ s : State, s.a.block.length ≠ 16 →
    exec .subb s = .next (failed s .invalidBlockSize) ∧ exec .isubb s = .next (failed s .invalidBlockSize)) ∧
  substituteBytes (Vector.replicate 16 0x00) = Vector.replicate 16 0x63 ∧
  substituteBytes (Vector.replicate 16 0xFF) = Vector.replicate 16 0x16 ∧
  (∀ x : Block, substituteBytes x ≠ x) ∧ invSubstituteBytes (Vector.replicate 16 0x63) = Vector.replicate 16 0x00 ∧
  substituteBytes (hexBlock 0x000102030405060708090a0b0c0d0e0f) = hexBlock 0x637c777bf26b6fc53001672bfed7ab76 ∧
  invSubstituteBytes (hexBlock 0x000102030405060708090a0b0c0d0e0f) = hexBlock 0x52096ad53036a538bf40a39e81f3d7fb

/-- PERM and IPERM (R164, R165), with the matrix form, the fixed row, the order 4 and the worked examples. The matrix form
of both, the corner cases of PERM with its order 4, and IPERM as three PERMs are inferences the spec marks as its own,
from R141. -/
def Obligations.PermuteCommands : Prop :=
  decode 0x000A = .ok .perm ∧ decode 0x000B = .ok .iperm ∧
  (∀ (s : State) (x : Block), s.a.block = x.toList →
    ∃ t y, exec .perm s = .next t ∧ Responded s t (.ok (.block y)) ∧
      (∀ i : BitVec 4, y[i.toNat]'i.isLt = x[(romShift i).toNat]'(romShift i).isLt) ∧
      ∀ r c : Fin 4, entry y r c = entry x r (c + r)) ∧
  (∀ (s : State) (x : Block), s.a.block = x.toList →
    ∃ t y, exec .iperm s = .next t ∧ Responded s t (.ok (.block y)) ∧
      (∀ i : BitVec 4, y[i.toNat]'i.isLt = x[(romInvShift i).toNat]'(romInvShift i).isLt) ∧
      ∀ r c : Fin 4, entry y r c = entry x r (c - r)) ∧
  (∀ s : State, s.a.block.length ≠ 16 →
    exec .perm s = .next (failed s .invalidBlockSize) ∧ exec .iperm s = .next (failed s .invalidBlockSize)) ∧
  (∀ x : Block, (∀ c : Fin 4, column x c = column x 0) → permuteRows x = x ∧ invPermuteRows x = x) ∧
  (∀ x : Block, permuteRows (permuteRows (permuteRows (permuteRows x))) = x ∧
    invPermuteRows x = permuteRows (permuteRows (permuteRows x))) ∧
  permuteRows (hexBlock 0x000102030405060708090a0b0c0d0e0f) = hexBlock 0x00050a0f04090e03080d02070c01060b ∧
  invPermuteRows (hexBlock 0x000102030405060708090a0b0c0d0e0f) = hexBlock 0x000d0a0704010e0b0805020f0c090603

/-- R170, R172: DIFF and IDIFF: matrix row times column, with the fixed points and the worked examples; that a column of
four equal bytes is fixed is an inference the spec marks as its own, from R113. -/
def Obligations.DiffuseCommands : Prop :=
  decode 0x000C = .ok .diff ∧ decode 0x000D = .ok .idiff ∧
  (∀ (s : State) (x : Block), s.a.block = x.toList →
    ∃ t y, exec .diff s = .next t ∧ Responded s t (.ok (.block y)) ∧ ∀ r c : Fin 4, entry y r c =
      multiply forwardMatrix[r][0] (entry x 0 c) ^^^ multiply forwardMatrix[r][1] (entry x 1 c) ^^^
      multiply forwardMatrix[r][2] (entry x 2 c) ^^^ multiply forwardMatrix[r][3] (entry x 3 c)) ∧
  (∀ (s : State) (x : Block), s.a.block = x.toList →
    ∃ t y, exec .idiff s = .next t ∧ Responded s t (.ok (.block y)) ∧ ∀ r c : Fin 4, entry y r c =
      multiply inverseMatrix[r][0] (entry x 0 c) ^^^ multiply inverseMatrix[r][1] (entry x 1 c) ^^^
      multiply inverseMatrix[r][2] (entry x 2 c) ^^^ multiply inverseMatrix[r][3] (entry x 3 c)) ∧
  (forwardMatrix[0] = #v[2, 3, 1, 1] ∧ forwardMatrix[1] = #v[1, 2, 3, 1] ∧
    forwardMatrix[2] = #v[1, 1, 2, 3] ∧ forwardMatrix[3] = #v[3, 1, 1, 2]) ∧
  (inverseMatrix[0] = #v[14, 11, 13, 9] ∧ inverseMatrix[1] = #v[9, 14, 11, 13] ∧
    inverseMatrix[2] = #v[13, 9, 14, 11] ∧ inverseMatrix[3] = #v[11, 13, 9, 14]) ∧
  (∀ s : State, s.a.block.length ≠ 16 →
    exec .diff s = .next (failed s .invalidBlockSize) ∧ exec .idiff s = .next (failed s .invalidBlockSize)) ∧
  (∀ (x : Block) (c : Fin 4), (∀ r : Fin 4, entry x r c = entry x 0 c) →
    column (diffuse x) c = column x c ∧ column (invDiffuse x) c = column x c) ∧
  diffuse (Vector.replicate 16 0) = Vector.replicate 16 0 ∧
  diffuse (hexBlock 0xdb135345f20a225c01010101c6c6c6c6) = hexBlock 0x8e4da1bc9fdc589d01010101c6c6c6c6 ∧
  invDiffuse (hexBlock 0x8e4da1bc9fdc589d01010101c6c6c6c6) = hexBlock 0xdb135345f20a225c01010101c6c6c6c6

/-- R171, R173: the two diffusions written out per column. -/
def Obligations.DiffuseWrittenOut : Prop :=
  ∀ (x : Block) (c : Fin 4),
    let a0 := entry x 0 c
    let a1 := entry x 1 c
    let a2 := entry x 2 c
    let a3 := entry x 3 c
    column (diffuse x) c =
      #v[multiply 2 a0 ^^^ multiply 3 a1 ^^^ a2 ^^^ a3, a0 ^^^ multiply 2 a1 ^^^ multiply 3 a2 ^^^ a3,
        a0 ^^^ a1 ^^^ multiply 2 a2 ^^^ multiply 3 a3, multiply 3 a0 ^^^ a1 ^^^ a2 ^^^ multiply 2 a3] ∧
    column (invDiffuse x) c =
      #v[multiply 14 a0 ^^^ multiply 11 a1 ^^^ multiply 13 a2 ^^^ multiply 9 a3,
        multiply 9 a0 ^^^ multiply 14 a1 ^^^ multiply 11 a2 ^^^ multiply 13 a3,
        multiply 13 a0 ^^^ multiply 9 a1 ^^^ multiply 14 a2 ^^^ multiply 11 a3,
        multiply 11 a0 ^^^ multiply 13 a1 ^^^ multiply 9 a2 ^^^ multiply 14 a3]

/-- R175: MIXK, with its corner cases, which the spec infers from R175 itself, and its worked example. -/
def Obligations.MixkResult : Prop :=
  decode 0x000E = .ok .mixk ∧
  (∀ (s : State) (x k : Block), s.a.block = x.toList → s.b.block = k.toList →
    ∃ t y, exec .mixk s = .next t ∧ Responded s t (.ok (.block y)) ∧ ∀ i : Fin 16, y[i] = x[i] ^^^ k[i]) ∧
  (∀ s : State, s.a.block.length ≠ 16 ∨ s.b.block.length ≠ 16 →
    exec .mixk s = .next (failed s .invalidBlockSize)) ∧
  (∀ x k : Block, mixRoundKey x (Vector.replicate 16 0) = x ∧ mixRoundKey x x = Vector.replicate 16 0 ∧
    mixRoundKey x k = mixRoundKey k x) ∧
  mixRoundKey (hexBlock 0x3243f6a8885a308d313198a2e0370734) (hexBlock 0x2b7e151628aed2a6abf7158809cf4f3c) =
    hexBlock 0x193de3bea0f4e22b9ac68d2ae9f84808

/-- R163, R166, R176: the substitutions, the permutations and the key mix undo each other; for the first two the spec marks
the order inverse-first as its own inference, from R136 and R143. -/
def Obligations.TransformsAreInverse : Prop :=
  (∀ b : Block, invSubstituteBytes (substituteBytes b) = b ∧ substituteBytes (invSubstituteBytes b) = b) ∧
  (∀ b : Block, invPermuteRows (permuteRows b) = b ∧ permuteRows (invPermuteRows b) = b) ∧
  (∀ b k : Block, mixRoundKey (mixRoundKey b k) k = b)

/-- R174: the two matrices are inverse over the field, so the two diffusions undo each other; the order inverse-first is an
inference the spec marks as its own. -/
def Obligations.DiffusionsAreInverse : Prop :=
  (∀ r c : Fin 4,
    (multiply inverseMatrix[r][0] forwardMatrix[0][c] ^^^ multiply inverseMatrix[r][1] forwardMatrix[1][c] ^^^
      multiply inverseMatrix[r][2] forwardMatrix[2][c] ^^^ multiply inverseMatrix[r][3] forwardMatrix[3][c] =
      if r = c then 1 else 0) ∧
    (multiply forwardMatrix[r][0] inverseMatrix[0][c] ^^^ multiply forwardMatrix[r][1] inverseMatrix[1][c] ^^^
      multiply forwardMatrix[r][2] inverseMatrix[2][c] ^^^ multiply forwardMatrix[r][3] inverseMatrix[3][c] =
      if r = c then 1 else 0)) ∧
  (∀ b : Block, invDiffuse (diffuse b) = b) ∧ (∀ b : Block, diffuse (invDiffuse b) = b)

/-- R177: the lane structure: byte lanes for substitution and key mix, moved bytes for the permutations, columns for the
diffusions. -/
def Obligations.LaneStructure : Prop :=
  (∀ (x x' k k' : Block) (i : Fin 16), x[i] = x'[i] → k[i] = k'[i] →
    (substituteBytes x)[i] = (substituteBytes x')[i] ∧ (invSubstituteBytes x)[i] = (invSubstituteBytes x')[i] ∧
    (mixRoundKey x k)[i] = (mixRoundKey x' k')[i]) ∧
  (∃ p q : Equiv.Perm (Fin 16), ∀ (x : Block) (i : Fin 16),
    (permuteRows x)[i] = x[p i] ∧ (invPermuteRows x)[i] = x[q i]) ∧
  (∀ (x x' : Block) (c : Fin 4), column x c = column x' c →
    column (diffuse x) c = column (diffuse x') c ∧ column (invDiffuse x) c = column (invDiffuse x') c)

/-! ## Key schedule (spec/43_key_schedule.md) -/

/-- R191, R192: ROTW and SUBW, with corner cases and worked examples; that four rotations are the identity and that the two
commute are inferences the spec marks as its own. -/
def Obligations.WordCommands : Prop :=
  decode 0x000F = .ok .rotw ∧ decode 0x0010 = .ok .subw ∧
  (∀ s : State, ∃ t, exec .rotw s = .next t ∧
    Responded s t (.ok (.word #v[s.a.word[1], s.a.word[2], s.a.word[3], s.a.word[0]]))) ∧
  (∀ s : State, ∃ t v, exec .subw s = .next t ∧ Responded s t (.ok (.word v)) ∧ ∀ j : Fin 4, v[j] = romS s.a.word[j]) ∧
  (∀ b : Byte, rotateLeftByOne (Vector.replicate 4 b) = Vector.replicate 4 b) ∧
  (∀ w : Word, rotateLeftByOne (rotateLeftByOne (rotateLeftByOne (rotateLeftByOne w))) = w ∧
    substituteWord (rotateLeftByOne w) = rotateLeftByOne (substituteWord w)) ∧
  rotateLeftByOne (hexWord 0x09cf4f3c) = hexWord 0xcf4f3c09 ∧
  substituteWord (hexWord 0x00000000) = hexWord 0x63636363 ∧ substituteWord (hexWord 0xcf4f3c09) = hexWord 0x8a84eb01

/-- R193: EXPAND: the key's groups verbatim, then the recurrence for every index 4..43; the registers it writes are `KEYR`,
`W`, `TEMP` and `WI`; with the corner cases and the worked example. -/
def Obligations.ExpandResult : Prop :=
  decode 0x0011 = .ok .expand ∧
  (∀ (s : State) (key : Block), s.a.block = key.toList →
    ∃ t w, exec .expand s = .next t ∧ Responded s t (.ok (.words44 w)) ∧
      (∀ j k : Fin 4, (w[j.val])[k] = key[4 * j.val + k.val]) ∧
      ∀ (i : Nat) (h4 : 4 ≤ i) (h : i < 44), w[i] = xorWord w[i - 4]
        (if hi : i % 4 = 0 then
          xorFirstByte (substituteWord (rotateLeftByOne w[i - 1])) (romRcon (i / 4) ⟨by omega, by omega⟩)
        else w[i - 1])) ∧
  (∀ (w : Work) (key : Block), ∃ temp wi,
    w.expand key = { w with keyr := key, store := expand key, temp := temp, wi := wi }) ∧
  (∀ s : State, s.a.block.length ≠ 16 → exec .expand s = .next (failed s .invalidBlockSize)) ∧
  (expand (Vector.replicate 16 0x00))[4] = hexWord 0x62636363 ∧
  (expand (Vector.replicate 16 0xFF))[4] = hexWord 0xe8e9e9e9 ∧
  (expand (hexBlock 0x2b7e151628aed2a6abf7158809cf4f3c))[3] = hexWord 0x09cf4f3c ∧
  (expand (hexBlock 0x2b7e151628aed2a6abf7158809cf4f3c))[4] = hexWord 0xa0fafe17 ∧
  (expand (hexBlock 0x2b7e151628aed2a6abf7158809cf4f3c))[5] = hexWord 0x88542cb1

/-- R195: RESHAPE takes any 44 Words, moves bytes and changes none: the 176 bytes are the same, in the same order. The
form byte by byte and the equality of the 176 bytes are inferences the spec marks as its own, from R195 and R53. -/
def Obligations.ReshapeResult : Prop :=
  decode 0x0012 = .ok .reshape ∧
  (∀ s : State, ∃ t rk, exec .reshape s = .next t ∧ Responded s t (.ok (.sched rk)) ∧
    (∀ (r : Fin 11) (j k : Fin 4), (rk[r])[4 * j.val + k.val] = (s.a.words44[4 * r.val + j.val])[k]) ∧
    (rk.toList.flatMap fun b => b.toList) = (s.a.words44.toList.flatMap fun w => w.toList)) ∧
  (let rk := reshape (expand (hexBlock 0x2b7e151628aed2a6abf7158809cf4f3c))
   rk[1] = hexBlock 0xa0fafe1788542cb123a339392a6c7605)

/-- R196: the schedule's round key 0 is the key itself. -/
def Obligations.RoundKeyZeroIsKey : Prop :=
  ∀ key : Block, schedule key = reshape (expand key) ∧ (schedule key)[0] = key

/-- R197: RKEY, with the index neither wrapped nor clamped; `r = 0` of a key's schedule is the key. -/
def Obligations.RkeyResult : Prop :=
  (∀ r : BitVec 4, decode (0x0013 ||| (r.setWidth 16 <<< 5)) = .ok (.rkey r)) ∧
  (∀ (s : State) (r : BitVec 4) (h : r.toNat ≤ 10),
    ∃ t, exec (.rkey r) s = .next t ∧ Responded s t (.ok (.block s.a.sched[r.toNat]))) ∧
  (∀ (s : State) (r : BitVec 4), 10 < r.toNat → exec (.rkey r) s = .next (failed s .invalidRoundIndex)) ∧
  (∀ (s : State) (key : Block), s.a.sched = schedule key →
    ∃ t, exec (.rkey 0) s = .next t ∧ Responded s t (.ok (.block key))) ∧
  (∀ s : State, s.a.sched = schedule (hexBlock 0x000102030405060708090a0b0c0d0e0f) →
    ∃ t, exec (.rkey 10) s = .next t ∧ Responded s t (.ok (.block (hexBlock 0x13111d7fe3944a17f307a78b4d2b30c5))))

/-- R199: the schedule as a recurrence from one round key to the next. -/
def Obligations.BlockRecurrence : Prop :=
  ∀ (key : Block) (r : Nat) (h : 1 ≤ r ∧ r ≤ 10),
    let p := (schedule key)[r - 1]
    let q := (schedule key)[r]
    let g := xorFirstByte (substituteWord (rotateLeftByOne (column p 3))) (romRcon r h)
    column q 0 = xorWord (column p 0) g ∧ column q 1 = xorWord (column p 1) (column q 0) ∧
    column q 2 = xorWord (column p 2) (column q 1) ∧ column q 3 = xorWord (column p 3) (column q 2)

/-- The pseudo-commands (R95): KSCHED is EXPAND and then RESHAPE of its result, and answers the key's schedule; FROUND is
PROUND with FULL. Handing the result on is the host's part (log 30, DEDUCED), and that the answer is the key's schedule is
R196, an inference the spec marks as its own. -/
def Obligations.PseudoCommands : Prop :=
  PseudoCommand.ksched.expansion = [.expand, .reshape] ∧
  (∀ r : BitVec 4, (PseudoCommand.fround r).expansion = [.pround r .full]) ∧
  (∀ (s : State) (a : PortA) (b : PortB) (key : Block), s.inFlight = false → a.block = key.toList →
    ∃ t u w, runCommand s (encode .expand) a b = .next t ∧ t.response = some (.ok (.words44 w)) ∧
      runCommand t (encode .reshape) (loadA a (.words44 w)) b = .next u ∧
      u.response = some (.ok (.sched (schedule key)))) ∧
  (∀ (s : State) (a : PortA) (b : PortB) (st key : Block) (r : BitVec 4) (h : 1 ≤ r.toNat ∧ r.toNat ≤ 10),
    s.inFlight = false → a.block = st.toList → b.block = key.toList →
    ∃ t, runCommand s (encode (.pround r .full)) a b = .next t ∧
      t.response = some (.ok (.block (fullRound st key r.toNat h))))

/-! ## The cipher commands (spec/44_cipher_engine.md) -/

/-- R220: ENC answers `e[10]` of the named intermediate values, whose names and the corner case of equal operands are
inferences the spec marks as its own (R221, and R196 with R175). -/
def Obligations.EncResult : Prop :=
  decode 0x0014 = .ok .enc ∧
  (∀ (s : State) (plain key : Block), s.a.block = plain.toList → s.b.block = key.toList →
    ∃ (t : State) (e : Nat → Block), exec .enc s = .next t ∧ Responded s t (.ok (.block (e 10))) ∧
      e 0 = mixRoundKey plain (schedule key)[0] ∧
      (∀ (r : Nat) (_ : 1 ≤ r ∧ r ≤ 9), e r =
        mixRoundKey (diffuse (permuteRows (substituteBytes (e (r - 1))))) (schedule key)[r]) ∧
      e 10 = mixRoundKey (permuteRows (substituteBytes (e 9))) (schedule key)[10] ∧ encrypt plain key = e 10) ∧
  (∀ s : State, s.a.block.length ≠ 16 ∨ s.b.block.length ≠ 16 →
    exec .enc s = .next (failed s .invalidBlockSize)) ∧
  (∀ key : Block, mixRoundKey key (schedule key)[0] = Vector.replicate 16 0) ∧
  encrypt (hexBlock 0x00112233445566778899aabbccddeeff) (hexBlock 0x000102030405060708090a0b0c0d0e0f) =
    hexBlock 0x69c4e0d86a7b0430d8cdb78070b4c55a

/-- R223: DEC answers `d[0]` of the named intermediate values, with the unmodified round keys; `d r` is `STATE`
after the step with round key `r`. -/
def Obligations.DecResult : Prop :=
  decode 0x0015 = .ok .dec ∧
  (∀ (s : State) (cipher key : Block), s.a.block = cipher.toList → s.b.block = key.toList →
    ∃ (t : State) (d : Nat → Block), exec .dec s = .next t ∧ Responded s t (.ok (.block (d 0))) ∧
      d 10 = mixRoundKey cipher (schedule key)[10] ∧
      (∀ (r : Nat) (_ : 1 ≤ r ∧ r ≤ 9), d r =
        invDiffuse (mixRoundKey (invSubstituteBytes (invPermuteRows (d (r + 1)))) (schedule key)[r])) ∧
      d 0 = mixRoundKey (invSubstituteBytes (invPermuteRows (d 1))) (schedule key)[0] ∧ decrypt cipher key = d 0) ∧
  (∀ s : State, s.a.block.length ≠ 16 ∨ s.b.block.length ≠ 16 →
    exec .dec s = .next (failed s .invalidBlockSize)) ∧
  decrypt (hexBlock 0x69c4e0d86a7b0430d8cdb78070b4c55a) (hexBlock 0x000102030405060708090a0b0c0d0e0f) =
    hexBlock 0x00112233445566778899aabbccddeeff

/-- R224: decrypting a ciphertext walks back through the encryption's states: `d[r]` is the state of encryption round `r`
just before its Diffuse. -/
def Obligations.DecryptWalksBack : Prop :=
  ∀ (plain key : Block),
    (∀ (r : Nat) (_ : 1 ≤ r ∧ r ≤ 10),
      decStateAfter (schedule key) (encrypt plain key) (10 - r) (by omega) =
        permuteRows (substituteBytes (encState (schedule key) plain (r - 1) (by omega)))) ∧
    decStateAfter (schedule key) (encrypt plain key) 10 (by decide) = plain

/-- The round trip, both ways (R225), and the two known answers of spec/95_test_vectors.md section 8. The converse,
encrypting a decryption, is an inference the spec marks as its own, from R224. -/
def Obligations.CipherRoundTrip : Prop :=
  (∀ plain key : Block, decrypt (encrypt plain key) key = plain) ∧
  (∀ cipher key : Block, encrypt (decrypt cipher key) key = cipher) ∧
  encrypt (hexBlock 0x3243f6a8885a308d313198a2e0370734) (hexBlock 0x2b7e151628aed2a6abf7158809cf4f3c) =
    hexBlock 0x3925841d02dc09fbdc118597196a0b32 ∧
  decrypt (hexBlock 0x3925841d02dc09fbdc118597196a0b32) (hexBlock 0x2b7e151628aed2a6abf7158809cf4f3c) =
    hexBlock 0x3243f6a8885a308d313198a2e0370734 ∧
  encrypt (hexBlock 0x00112233445566778899aabbccddeeff) (hexBlock 0x000102030405060708090a0b0c0d0e0f) =
    hexBlock 0x69c4e0d86a7b0430d8cdb78070b4c55a ∧
  decrypt (hexBlock 0x69c4e0d86a7b0430d8cdb78070b4c55a) (hexBlock 0x000102030405060708090a0b0c0d0e0f) =
    hexBlock 0x00112233445566778899aabbccddeeff

/-- The round trip through the ports: ENC, then DEC of ENC's response under the same key, answers the plaintext, from any
idle engine whatever its registers hold (spec/95_test_vectors.md P1, program 2). -/
def Obligations.EncThenDecOnThePorts : Prop :=
  ∀ (s : State) (a : PortA) (b : PortB) (plain key : Block),
    s.inFlight = false → a.block = plain.toList → b.block = key.toList →
    ∃ t u c, runCommand s 0x0014 a b = .next t ∧ t.response = some (.ok c) ∧
      runCommand t 0x0015 (loadA a c) b = .next u ∧ u.response = some (.ok (.block plain))

/-- R226: PROUND under each selector, rounds 1..9 and round 10, and its errors; the written-out form of each selector is
R227's, an inference the spec marks as its own. -/
def Obligations.ProundResult : Prop :=
  (∀ (round : BitVec 4) (sel : RoundSelector),
    decode (0x0016 ||| (round.setWidth 16 <<< 5) ||| ((selectorCode sel).setWidth 16 <<< 9)) =
      .ok (.pround round sel)) ∧
  (∀ (s : State) (st key : Block) (round : BitVec 4) (h : 1 ≤ round.toNat ∧ round.toNat ≤ 10) (sel : RoundSelector),
    s.a.block = st.toList → s.b.block = key.toList →
    let k (x : Block) := mixRoundKey x (schedule key)[round.toNat]
    let df (x : Block) := if round = 10 then x else diffuse x
    ∃ t, exec (.pround round sel) s = .next t ∧ Responded s t (.ok (.block (match sel with
      | .full => k (df (permuteRows (substituteBytes st)))
      | .omitSub => k (df (permuteRows st))
      | .omitPerm => k (df (substituteBytes st))
      | .omitDiff => k (permuteRows (substituteBytes st))
      | .omitKey => df (permuteRows (substituteBytes st)))))) ∧
  (∀ (s : State) (round : BitVec 4) (sel : RoundSelector), s.a.block.length ≠ 16 ∨ s.b.block.length ≠ 16 →
    exec (.pround round sel) s = .next (failed s .invalidBlockSize)) ∧
  (∀ (s : State) (st key : Block) (round : BitVec 4) (sel : RoundSelector),
    s.a.block = st.toList → s.b.block = key.toList → ¬ (1 ≤ round.toNat ∧ round.toNat ≤ 10) →
    exec (.pround round sel) s = .next (failed s .invalidRoundIndex)) ∧
  partialRound (hexBlock 0x00102030405060708090a0b0c0d0e0f0) (hexBlock 0x000102030405060708090a0b0c0d0e0f) 1
    ⟨by decide, by decide⟩ .full = hexBlock 0x89d810e8855ace682d1843d8cb128fe4 ∧
  partialRound (hexBlock 0x00102030405060708090a0b0c0d0e0f0) (hexBlock 0x000102030405060708090a0b0c0d0e0f) 1
    ⟨by decide, by decide⟩ .omitDiff = hexBlock 0xb5f99471dbcf93fe17d6cfa06c61a619

/-- R229: a full partial round is a cipher round, so ten of them from the key mix are an encryption. -/
def Obligations.TenFullRoundsEncrypt : Prop :=
  ∀ plain key : Block,
    (∀ (r : Nat) (h : 1 ≤ r ∧ r ≤ 10),
      partialRound (encState (schedule key) plain (r - 1) (by omega)) key r h .full =
        encState (schedule key) plain r (by omega)) ∧
    mixRoundKey plain key = encState (schedule key) plain 0 (by decide) ∧
    encrypt plain key = (List.finRange 10).foldl
      (fun st k => fullRound st key (k.val + 1) ⟨by omega, by omega⟩) (mixRoundKey plain (schedule key)[0])

/-! ## The boundary codec (spec/45_boundary_codec.md, spec/20_memory.md) -/

/-- R251: PARSE on 128 digits, its errors and its corner cases. -/
def Obligations.ParseResult : Prop :=
  decode 0x0017 = .ok .parse ∧
  (∀ (s : State) (v : Vector BitChar 128), s.a.bits = v.toList → (∀ j : Fin 128, v[j] = .zero ∨ v[j] = .one) →
    ∃ t x, exec .parse s = .next t ∧ Responded s t (.ok (.block x)) ∧
      ∀ (i : Fin 16) (k : Fin 8), (x[i]).getLsbD (7 - k.val) = decide (v[8 * i.val + k.val] = .one)) ∧
  (∀ s : State, (s.a.bits.length ≠ 128 ∨ ∃ c ∈ s.a.bits, c ≠ .zero ∧ c ≠ .one) →
    exec .parse s = .next (failed s .invalidInputLength)) ∧
  parseBits [] = none ∧ parseBits (List.replicate 127 .zero) = none ∧ parseBits (List.replicate 129 .zero) = none ∧
  (∀ n : Nat, parseBits (List.replicate 127 .zero ++ [.other n]) = none) ∧
  parseBits (List.replicate 128 .zero) = some (Vector.replicate 16 0x00) ∧
  parseBits (List.replicate 128 .one) = some (Vector.replicate 16 0xFF)

/-- R252: RENDER: every byte as eight characters, most significant bit first, zero-padded. -/
def Obligations.RenderResult : Prop :=
  decode 0x0018 = .ok .render ∧
  (∀ (s : State) (x : Block), s.a.block = x.toList →
    ∃ t v, exec .render s = .next t ∧ Responded s t (.ok (.bits128 v)) ∧
      ∀ (i : Fin 16) (k : Fin 8), v[8 * i.val + k.val] = if (x[i]).getLsbD (7 - k.val) then .one else .zero) ∧
  (∀ s : State, s.a.block.length ≠ 16 → exec .render s = .next (failed s .invalidBlockSize)) ∧
  (renderBits (hexBlock 0x80000000000000000000000000000001)).toList =
    [.one] ++ List.replicate 126 .zero ++ [.one]

/-- R253: PARSE and RENDER are inverse of each other. -/
def Obligations.CodecRoundTrip : Prop :=
  (∀ b : Block, parseBits (renderBits b).toList = some b) ∧
  (∀ (l : List BitChar) (b : Block), parseBits l = some b → (renderBits b).toList = l)

/-- R56: the places of bytes and bits on the ports, and the 128-bit image as the bit string read as one numeral. -/
def Obligations.PortImages : Prop :=
  (∀ (b : Block) (i : Fin 16), (blockPort b).extractLsb' (120 - 8 * i.val) 8 = b[i]) ∧
  (∀ (b : Block) (i : Fin 16) (k : Fin 8), (blockPort b).getLsbD (120 - 8 * i.val + k.val) = (b[i]).getLsbD k.val) ∧
  (∀ (b : Block) (j : Fin 128), (renderBits b)[j] = if (blockPort b).getMsbD j.val then .one else .zero) ∧
  (∀ (w : Word) (j : Fin 4), (wordPort w).extractLsb' (24 - 8 * j.val) 8 = w[j])
end

