-- ==== Sys2Proof/Laws/State.lean ====
section
/-! SUPPORT. One lemma per field per update of State and Work, so that no proof unfolds a record update. -/

namespace Sys2Proof.Machine

open Sys2Proof

/-! ### State -/

@[simp] theorem State.respondOk_inFlight (s : State) (r : Result) :
    (s.respondOk r).inFlight = false := rfl

@[simp] theorem State.respondOk_cw (s : State) (r : Result) :
    (s.respondOk r).cw = s.cw := rfl

@[simp] theorem State.respondOk_a (s : State) (r : Result) :
    (s.respondOk r).a = s.a := rfl

@[simp] theorem State.respondOk_b (s : State) (r : Result) :
    (s.respondOk r).b = s.b := rfl

@[simp] theorem State.respondOk_response (s : State) (r : Result) :
    (s.respondOk r).response = some (.ok r) := rfl

@[simp] theorem State.respondOk_work (s : State) (r : Result) :
    (s.respondOk r).work = Work.unspecified s.tick := rfl

@[simp] theorem State.respondOk_tick (s : State) (r : Result) :
    (s.respondOk r).tick = s.tick + 1 := rfl

@[simp] theorem State.raise_inFlight (s : State) (k : ErrorKind) :
    (s.raise k).inFlight = false := rfl

@[simp] theorem State.raise_cw (s : State) (k : ErrorKind) :
    (s.raise k).cw = s.cw := rfl

@[simp] theorem State.raise_a (s : State) (k : ErrorKind) :
    (s.raise k).a = s.a := rfl

@[simp] theorem State.raise_b (s : State) (k : ErrorKind) :
    (s.raise k).b = s.b := rfl

@[simp] theorem State.raise_response (s : State) (k : ErrorKind) :
    (s.raise k).response = some (.err k) := rfl

@[simp] theorem State.raise_work (s : State) (k : ErrorKind) :
    (s.raise k).work = s.work := rfl

@[simp] theorem State.raise_tick (s : State) (k : ErrorKind) :
    (s.raise k).tick = s.tick := rfl

@[simp] theorem State.withWork_inFlight (s : State) (w : Work) :
    (s.withWork w).inFlight = s.inFlight := rfl

@[simp] theorem State.withWork_cw (s : State) (w : Work) :
    (s.withWork w).cw = s.cw := rfl

@[simp] theorem State.withWork_a (s : State) (w : Work) :
    (s.withWork w).a = s.a := rfl

@[simp] theorem State.withWork_b (s : State) (w : Work) :
    (s.withWork w).b = s.b := rfl

@[simp] theorem State.withWork_response (s : State) (w : Work) :
    (s.withWork w).response = s.response := rfl

@[simp] theorem State.withWork_work (s : State) (w : Work) :
    (s.withWork w).work = w := rfl

@[simp] theorem State.withWork_tick (s : State) (w : Work) :
    (s.withWork w).tick = s.tick := rfl

@[simp] theorem State.resetEvent_inFlight (s : State) :
    (s.resetEvent).inFlight = false := rfl

@[simp] theorem State.resetEvent_cw (s : State) :
    (s.resetEvent).cw = s.cw := rfl

@[simp] theorem State.resetEvent_a (s : State) :
    (s.resetEvent).a = s.a := rfl

@[simp] theorem State.resetEvent_b (s : State) :
    (s.resetEvent).b = s.b := rfl

@[simp] theorem State.resetEvent_response (s : State) :
    (s.resetEvent).response = none := rfl

@[simp] theorem State.resetEvent_work (s : State) :
    (s.resetEvent).work = Work.unspecified s.tick := rfl

@[simp] theorem State.resetEvent_tick (s : State) :
    (s.resetEvent).tick = s.tick + 1 := rfl

/-! ### Working registers -/

@[simp] theorem Work.setState_state (w : Work) (v : Block) :
    (w.setState v).state = v := rfl

@[simp] theorem Work.setState_keyr (w : Work) (v : Block) :
    (w.setState v).keyr = w.keyr := rfl

@[simp] theorem Work.setState_store (w : Work) (v : Block) :
    (w.setState v).store = w.store := rfl

@[simp] theorem Work.setState_temp (w : Work) (v : Block) :
    (w.setState v).temp = w.temp := rfl

@[simp] theorem Work.setState_rnd (w : Work) (v : Block) :
    (w.setState v).rnd = w.rnd := rfl

@[simp] theorem Work.setState_wi (w : Work) (v : Block) :
    (w.setState v).wi = w.wi := rfl

@[simp] theorem Work.setState_acc (w : Work) (v : Block) :
    (w.setState v).acc = w.acc := rfl

@[simp] theorem Work.setKeyr_state (w : Work) (v : Block) :
    (w.setKeyr v).state = w.state := rfl

@[simp] theorem Work.setKeyr_keyr (w : Work) (v : Block) :
    (w.setKeyr v).keyr = v := rfl

@[simp] theorem Work.setKeyr_store (w : Work) (v : Block) :
    (w.setKeyr v).store = w.store := rfl

@[simp] theorem Work.setKeyr_temp (w : Work) (v : Block) :
    (w.setKeyr v).temp = w.temp := rfl

@[simp] theorem Work.setKeyr_rnd (w : Work) (v : Block) :
    (w.setKeyr v).rnd = w.rnd := rfl

@[simp] theorem Work.setKeyr_wi (w : Work) (v : Block) :
    (w.setKeyr v).wi = w.wi := rfl

@[simp] theorem Work.setKeyr_acc (w : Work) (v : Block) :
    (w.setKeyr v).acc = w.acc := rfl

@[simp] theorem Work.setTemp_state (w : Work) (v : Word) :
    (w.setTemp v).state = w.state := rfl

@[simp] theorem Work.setTemp_keyr (w : Work) (v : Word) :
    (w.setTemp v).keyr = w.keyr := rfl

@[simp] theorem Work.setTemp_store (w : Work) (v : Word) :
    (w.setTemp v).store = w.store := rfl

@[simp] theorem Work.setTemp_temp (w : Work) (v : Word) :
    (w.setTemp v).temp = v := rfl

@[simp] theorem Work.setTemp_rnd (w : Work) (v : Word) :
    (w.setTemp v).rnd = w.rnd := rfl

@[simp] theorem Work.setTemp_wi (w : Work) (v : Word) :
    (w.setTemp v).wi = w.wi := rfl

@[simp] theorem Work.setTemp_acc (w : Work) (v : Word) :
    (w.setTemp v).acc = w.acc := rfl

@[simp] theorem Work.setRnd_state (w : Work) (v : Fin 11) :
    (w.setRnd v).state = w.state := rfl

@[simp] theorem Work.setRnd_keyr (w : Work) (v : Fin 11) :
    (w.setRnd v).keyr = w.keyr := rfl

@[simp] theorem Work.setRnd_store (w : Work) (v : Fin 11) :
    (w.setRnd v).store = w.store := rfl

@[simp] theorem Work.setRnd_temp (w : Work) (v : Fin 11) :
    (w.setRnd v).temp = w.temp := rfl

@[simp] theorem Work.setRnd_rnd (w : Work) (v : Fin 11) :
    (w.setRnd v).rnd = v := rfl

@[simp] theorem Work.setRnd_wi (w : Work) (v : Fin 11) :
    (w.setRnd v).wi = w.wi := rfl

@[simp] theorem Work.setRnd_acc (w : Work) (v : Fin 11) :
    (w.setRnd v).acc = w.acc := rfl

@[simp] theorem Work.setWi_state (w : Work) (v : WordIndex) :
    (w.setWi v).state = w.state := rfl

@[simp] theorem Work.setWi_keyr (w : Work) (v : WordIndex) :
    (w.setWi v).keyr = w.keyr := rfl

@[simp] theorem Work.setWi_store (w : Work) (v : WordIndex) :
    (w.setWi v).store = w.store := rfl

@[simp] theorem Work.setWi_temp (w : Work) (v : WordIndex) :
    (w.setWi v).temp = w.temp := rfl

@[simp] theorem Work.setWi_rnd (w : Work) (v : WordIndex) :
    (w.setWi v).rnd = w.rnd := rfl

@[simp] theorem Work.setWi_wi (w : Work) (v : WordIndex) :
    (w.setWi v).wi = v := rfl

@[simp] theorem Work.setWi_acc (w : Work) (v : WordIndex) :
    (w.setWi v).acc = w.acc := rfl

@[simp] theorem Work.setAcc_state (w : Work) (v : BitVec 15) :
    (w.setAcc v).state = w.state := rfl

@[simp] theorem Work.setAcc_keyr (w : Work) (v : BitVec 15) :
    (w.setAcc v).keyr = w.keyr := rfl

@[simp] theorem Work.setAcc_store (w : Work) (v : BitVec 15) :
    (w.setAcc v).store = w.store := rfl

@[simp] theorem Work.setAcc_temp (w : Work) (v : BitVec 15) :
    (w.setAcc v).temp = w.temp := rfl

@[simp] theorem Work.setAcc_rnd (w : Work) (v : BitVec 15) :
    (w.setAcc v).rnd = w.rnd := rfl

@[simp] theorem Work.setAcc_wi (w : Work) (v : BitVec 15) :
    (w.setAcc v).wi = w.wi := rfl

@[simp] theorem Work.setAcc_acc (w : Work) (v : BitVec 15) :
    (w.setAcc v).acc = v := rfl

@[simp] theorem Work.setWord_state (w : Work) (i : Fin 44) (v : Word) :
    (w.setWord i v).state = w.state := rfl

@[simp] theorem Work.setWord_keyr (w : Work) (i : Fin 44) (v : Word) :
    (w.setWord i v).keyr = w.keyr := rfl

@[simp] theorem Work.setWord_store (w : Work) (i : Fin 44) (v : Word) :
    (w.setWord i v).store = w.store.set i.val v := rfl

@[simp] theorem Work.setWord_temp (w : Work) (i : Fin 44) (v : Word) :
    (w.setWord i v).temp = w.temp := rfl

@[simp] theorem Work.setWord_rnd (w : Work) (i : Fin 44) (v : Word) :
    (w.setWord i v).rnd = w.rnd := rfl

@[simp] theorem Work.setWord_wi (w : Work) (i : Fin 44) (v : Word) :
    (w.setWord i v).wi = w.wi := rfl

@[simp] theorem Work.setWord_acc (w : Work) (i : Fin 44) (v : Word) :
    (w.setWord i v).acc = w.acc := rfl

end Sys2Proof.Machine
end

