-- ==== Sys2Proof/Laws/Field.lean ====
section
/-! SUPPORT. The reduction loop ends below 256, and `multiply` through `ACC` is the pure `multiply`, touching `ACC` only
(spec/40_field_arithmetic.md R111, R112). -/

namespace Sys2Proof.Machine

open Sys2Proof

/-! ### The reduction loop -/

/-- "Each pass clears the highest set bit of `a` and changes only lower bits" (R112). -/
theorem reducePass_lt {a : Nat} (h : 256 ≤ a) : reducePass a < 2 ^ Nat.log2 a := by
  have ha : a ≠ 0 := by omega
  have hm : 8 ≤ Nat.log2 a := (Nat.le_log2 ha).2 (by simpa using h)
  obtain ⟨m, hm'⟩ := Nat.exists_eq_add_of_le hm
  have hlt : a < 2 ^ (Nat.log2 a + 1) := Nat.lt_log2_self
  have hge : 2 ^ Nat.log2 a ≤ a := Nat.log2_self_le ha
  have hmod : modulus <<< (Nat.log2 a - 8) < 2 ^ (Nat.log2 a + 1) := by
    rw [Nat.shiftLeft_eq, hm', show 8 + m - 8 = m by omega, show 8 + m + 1 = 9 + m by omega, Nat.pow_add]
    exact Nat.mul_lt_mul_of_pos_right (by decide) (Nat.two_pow_pos m)
  have hmge : 2 ^ Nat.log2 a ≤ modulus <<< (Nat.log2 a - 8) := by
    rw [Nat.shiftLeft_eq, hm', show 8 + m - 8 = m by omega, Nat.pow_add]
    exact Nat.mul_le_mul_right _ (by decide)
  have top : ∀ x, 2 ^ Nat.log2 a ≤ x → x < 2 ^ (Nat.log2 a + 1) → x.testBit (Nat.log2 a) = true := by
    intro x h1 h2
    rw [Nat.testBit_eq_decide_div_mod_eq]
    have : x / 2 ^ Nat.log2 a = 1 :=
      Nat.div_eq_of_lt_le (by simpa using h1) (by rw [← Nat.pow_succ']; simpa using h2)
    simp [this]
  apply Nat.lt_pow_two_of_testBit
  intro i hi
  rw [reducePass, Nat.testBit_xor]
  rcases Nat.lt_or_ge (Nat.log2 a) i with hlt' | hle
  · have e1 : a.testBit i = false :=
      Nat.testBit_lt_two_pow (lt_of_lt_of_le hlt (Nat.pow_le_pow_right (by decide) hlt'))
    have e2 : (modulus <<< (Nat.log2 a - 8)).testBit i = false :=
      Nat.testBit_lt_two_pow (lt_of_lt_of_le hmod (Nat.pow_le_pow_right (by decide) hlt'))
    simp [e1, e2]
  · have : i = Nat.log2 a := by omega
    subst this
    simp [top a hge hlt, top _ hmge hmod]

/-- A pass keeps a value below any power of two it was below. -/
theorem reducePass_lt_two_pow {a k : Nat} (h : 256 ≤ a) (hk : a < 2 ^ k) : reducePass a < 2 ^ k :=
  lt_of_lt_of_le (reducePass_lt h)
    (Nat.pow_le_pow_right (by decide) (Nat.le_of_lt ((Nat.log2_lt (by omega)).2 hk)))

/-- `n` passes bring a value of `n + 8` bits below 256 (R112: "at most 7 passes for a 15-bit `a`"). -/
theorem reduceLoop_lt {n a : Nat} (h : a < 2 ^ (n + 8)) : reduceLoop n a < 256 := by
  induction n generalizing a with
  | zero => simpa [reduceLoop] using h
  | succ n ih =>
    rw [reduceLoop]
    split
    · assumption
    · rename_i hge
      refine ih (lt_of_lt_of_le (reducePass_lt (by omega)) (Nat.pow_le_pow_right (by decide) ?_))
      have := (Nat.log2_lt (n := a) (by omega)).2 h
      omega

/-- The loop keeps a bound by a power of two. -/
theorem reduceLoop_lt_two_pow {n a k : Nat} (h : a < 2 ^ k) : reduceLoop n a < 2 ^ k := by
  induction n generalizing a with
  | zero => exact h
  | succ n ih =>
    rw [reduceLoop]
    split
    · exact h
    · exact ih (reducePass_lt_two_pow (by omega) h)

theorem reduceLoop_of_lt {n a : Nat} (h : a < 256) : reduceLoop n a = a := by
  cases n <;> simp [reduceLoop, h]

/-- The remainder is below 256 before it is narrowed to a byte: nothing is cut off. -/
theorem divide_toNat (a : BitVec 16) : (divide a).toNat = reduceLoop 8 a.toNat := by
  rw [divide, BitVec.toNat_ofNat]
  exact Nat.mod_eq_of_lt (reduceLoop_lt a.isLt)

/-- Fuel that is not needed changes nothing. -/
theorem reduceLoop_succ {n a : Nat} (h : a < 2 ^ (n + 8)) : reduceLoop (n + 1) a = reduceLoop n a := by
  induction n generalizing a with
  | zero => simp [reduceLoop, show a < 256 by simpa using h]
  | succ n ih =>
    rw [reduceLoop, reduceLoop.eq_def (n + 1) a]
    simp only
    split
    · rfl
    · rename_i hge
      have hl := (Nat.log2_lt (n := a) (by omega)).2 h
      exact ih (lt_of_lt_of_le (reducePass_lt (by omega)) (Nat.pow_le_pow_right (by decide) (by omega)))

/-- The loop looks at the top bit first: a value of `n + 9` bits loses a shifted modulus exactly if bit `n + 8` is set. -/
theorem reduceLoop_testBit {n a : Nat} (h : a < 2 ^ (n + 9)) :
    reduceLoop (n + 1) a = reduceLoop n (if a.testBit (n + 8) then a ^^^ (modulus <<< n) else a) := by
  by_cases hb : a.testBit (n + 8) = true
  · have hge : 2 ^ (n + 8) ≤ a := Nat.ge_two_pow_of_testBit hb
    have h256 : 256 ≤ a := le_trans (by rw [Nat.pow_add]; exact Nat.le_mul_of_pos_left _ (Nat.two_pow_pos n)) hge
    have hlog : Nat.log2 a = n + 8 := by
      have h1 := (Nat.log2_lt (n := a) (k := n + 9) (by omega)).2 h
      have h2 := (Nat.le_log2 (n := a) (k := n + 8) (by omega)).2 hge
      omega
    rw [reduceLoop, if_neg (by omega), if_pos hb, reducePass, hlog, Nat.add_sub_cancel]
  · have hlt : a < 2 ^ (n + 8) := by
      apply Nat.lt_pow_two_of_testBit
      intro i hi
      rcases Nat.lt_or_ge (n + 8) i with h1 | h1
      · exact Nat.testBit_lt_two_pow (lt_of_lt_of_le h (Nat.pow_le_pow_right (by decide) h1))
      · obtain rfl : i = n + 8 := by omega
        simpa using hb
    rw [if_neg hb, reduceLoop_succ hlt]

/-- The reduction loop is linear over XOR. -/
theorem reduceLoop_xor {n a b : Nat} (ha : a < 2 ^ (n + 8)) (hb : b < 2 ^ (n + 8)) :
    reduceLoop n (a ^^^ b) = reduceLoop n a ^^^ reduceLoop n b := by
  induction n generalizing a b with
  | zero => rfl
  | succ n ih =>
    have ha' : a < 2 ^ (n + 9) := ha
    have hb' : b < 2 ^ (n + 9) := hb
    rw [reduceLoop_testBit ha', reduceLoop_testBit hb', reduceLoop_testBit (Nat.xor_lt_two_pow ha' hb')]
    have hlow : ∀ x, x < 2 ^ (n + 9) →
        (if x.testBit (n + 8) then x ^^^ (modulus <<< n) else x) < 2 ^ (n + 8) := by
      intro x hx
      have hm : modulus <<< n < 2 ^ (n + 9) := by
        rw [Nat.shiftLeft_eq, Nat.add_comm n 9, Nat.pow_add]
        exact Nat.mul_lt_mul_of_pos_right (by decide) (Nat.two_pow_pos n)
      have hmb : (modulus <<< n).testBit (n + 8) = true := by
        rw [Nat.testBit_shiftLeft, Nat.add_sub_cancel_left]
        simp [modulus]
        decide
      apply Nat.lt_pow_two_of_testBit
      intro i hi
      rcases Nat.lt_or_ge (n + 8) i with h1 | h1
      · have e1 := Nat.testBit_lt_two_pow (lt_of_lt_of_le hx (Nat.pow_le_pow_right (by decide) h1))
        have e2 := Nat.testBit_lt_two_pow (lt_of_lt_of_le hm (Nat.pow_le_pow_right (by decide) h1))
        split <;> simp [e1, e2]
      · obtain rfl : i = n + 8 := by omega
        by_cases hx' : x.testBit (n + 8) = true <;> simp [hx', hmb]
    rw [← ih (hlow a ha') (hlow b hb')]
    congr 1
    rw [Nat.testBit_xor]
    cases a.testBit (n + 8) <;> cases b.testBit (n + 8) <;>
      simp [Nat.xor_comm, Nat.xor_left_comm]

/-- `divide` is linear over XOR (R115). -/
theorem divide_xor (a b : BitVec 16) : divide (a ^^^ b) = divide a ^^^ divide b := by
  apply BitVec.eq_of_toNat_eq
  rw [BitVec.toNat_xor, divide_toNat, divide_toNat, divide_toNat, BitVec.toNat_xor]
  exact reduceLoop_xor a.isLt b.isLt

/-! ### `multiply` through `ACC` -/

@[simp] theorem Work.setAcc_setAcc (w : Work) (x y : BitVec 15) : (w.setAcc x).setAcc y = w.setAcc y := rfl

@[simp] theorem Work.setAcc_acc_self (w : Work) : w.setAcc w.acc = w := rfl

theorem Work.foldl_setAcc (f : BitVec 15 → Nat → BitVec 15) (l : List Nat) (w : Work) :
    l.foldl (fun w k => w.setAcc (f w.acc k)) w = w.setAcc (l.foldl f w.acc) := by
  induction l generalizing w with
  | nil => rfl
  | cons k l ih => simp [ih]

/-- `ACC` holds the carry-less product, whatever it held before. -/
theorem Work.accumulate_eq (w : Work) (a b : Byte) : w.accumulate a b = w.setAcc (carrylessProduct a b) := by
  rw [Work.accumulate, Work.foldl_setAcc (accumulateBit a b)]
  rfl

/-- The reduction in `ACC` is the reduction loop on its value. -/
theorem Work.reduceAcc_eq (n : Nat) (w : Work) :
    Work.reduceAcc n w = w.setAcc (BitVec.ofNat 15 (reduceLoop n w.acc.toNat)) := by
  induction n generalizing w with
  | zero => simp [Work.reduceAcc, reduceLoop]
  | succ n ih =>
    rw [Work.reduceAcc, reduceLoop]
    split
    · simp
    · rename_i h
      have := reducePass_lt_two_pow (k := 15) (a := w.acc.toNat) (by omega) w.acc.isLt
      rw [ih, Work.setAcc_setAcc, Work.setAcc_acc, BitVec.toNat_ofNat, Nat.mod_eq_of_lt this]

/-- What `ACC` holds after `multiply`. -/
def accAfter (a b : Byte) : BitVec 15 := BitVec.ofNat 15 (reduceLoop 8 (carrylessProduct a b).toNat)

/-- `multiply` on the registers: the pure product, and only `ACC` written. -/
theorem Work.multiply_eq (w : Work) (a b : Byte) :
    w.multiply a b = (Machine.multiply a b, w.setAcc (accAfter a b)) := by
  have h : (BitVec.ofNat 15 (reduceLoop 8 (carrylessProduct a b).toNat)).setWidth 8 = Machine.multiply a b := by
    apply BitVec.eq_of_toNat_eq
    have := (carrylessProduct a b).isLt
    simp only [Machine.multiply, divide, BitVec.toNat_setWidth, BitVec.toNat_ofNat]
    rw [Nat.mod_eq_of_lt (show (carrylessProduct a b).toNat < 2 ^ 16 by omega)]
    omega
  simp [Work.multiply, Work.accumulate_eq, Work.reduceAcc_eq, h, accAfter]

end Sys2Proof.Machine
end

