-- ==== Sys2Proof/Laws/Operands.lean ====
section
/-! SUPPORT. The length test and the two operand forms, once (spec/60_exceptions.md R272, R274). -/

namespace Sys2Proof.Machine

open Sys2Proof

/-- Sixteen bytes are a Block. -/
theorem formBlock_toList (x : Block) : formBlock x.toList = some x := by
  rw [formBlock, dif_pos (by simp)]
  rfl

/-- Any other length is none. -/
theorem formBlock_none_iff (l : List Byte) : formBlock l = none ↔ l.length ≠ 16 := by
  unfold formBlock
  split <;> simp_all

/-- A formed Block is its bytes. -/
theorem formBlock_some_iff (l : List Byte) (x : Block) : formBlock l = some x ↔ l = x.toList := by
  constructor
  · intro h
    unfold formBlock at h
    split at h
    · obtain rfl := Option.some.inj h
      rfl
    · cases h
  · rintro rfl
    exact formBlock_toList x

/-- A list of 16 bytes is some Block's bytes. -/
theorem exists_block_of_length {l : List Byte} (h : l.length = 16) : ∃ x : Block, l = x.toList :=
  ⟨⟨l.toArray, by simpa using h⟩, rfl⟩

/-- One Block operand: it runs on 16 bytes, and raises otherwise. -/
theorem withBlockA_of_block {s : State} {x : Block} (h : s.a.block = x.toList) (run : Block → Outcome) :
    withBlockA s run = run x := by
  simp [withBlockA, h, formBlock_toList]

theorem withBlockA_of_length {s : State} (h : s.a.block.length ≠ 16) (run : Block → Outcome) :
    withBlockA s run = .next (s.raise .invalidBlockSize) := by
  simp [withBlockA, (formBlock_none_iff _).2 h]

/-- Two Block operands: it runs on 16 bytes each, and raises if either has another length. -/
theorem withBlocksAB_of_blocks {s : State} {x y : Block} (hx : s.a.block = x.toList) (hy : s.b.block = y.toList)
    (run : Block → Block → Outcome) : withBlocksAB s run = run x y := by
  simp [withBlocksAB, hx, hy, formBlock_toList]

theorem withBlocksAB_of_length {s : State} (h : s.a.block.length ≠ 16 ∨ s.b.block.length ≠ 16)
    (run : Block → Block → Outcome) : withBlocksAB s run = .next (s.raise .invalidBlockSize) := by
  unfold withBlocksAB
  split
  · rfl
  · rename_i x hx
    have hb : s.b.block.length ≠ 16 := by
      rcases h with h | h
      · rw [(formBlock_none_iff _).2 h] at hx
        cases hx
      · exact h
    rw [(formBlock_none_iff _).2 hb]

/-- Everything a command with one Block operand can do. -/
theorem withBlockA_cases (s : State) (run : Block → Outcome) :
    (∃ x, s.a.block = x.toList ∧ withBlockA s run = run x) ∨
      (s.a.block.length ≠ 16 ∧ withBlockA s run = .next (s.raise .invalidBlockSize)) := by
  by_cases h : s.a.block.length = 16
  · obtain ⟨x, hx⟩ := exists_block_of_length h
    exact .inl ⟨x, hx, withBlockA_of_block hx run⟩
  · exact .inr ⟨h, withBlockA_of_length h run⟩

/-- Everything a command with two Block operands can do. -/
theorem withBlocksAB_cases (s : State) (run : Block → Block → Outcome) :
    (∃ x y, s.a.block = x.toList ∧ s.b.block = y.toList ∧ withBlocksAB s run = run x y) ∨
      ((s.a.block.length ≠ 16 ∨ s.b.block.length ≠ 16) ∧
        withBlocksAB s run = .next (s.raise .invalidBlockSize)) := by
  by_cases h : s.a.block.length = 16 ∧ s.b.block.length = 16
  · obtain ⟨x, hx⟩ := exists_block_of_length h.1
    obtain ⟨y, hy⟩ := exists_block_of_length h.2
    exact .inl ⟨x, y, hx, hy, withBlocksAB_of_blocks hx hy run⟩
  · have h' : s.a.block.length ≠ 16 ∨ s.b.block.length ≠ 16 := by tauto
    exact .inr ⟨h', withBlocksAB_of_length h' run⟩

end Sys2Proof.Machine
end

