-- ==== Sys2Proof/Laws/Engine.lean ====
section
/-! SUPPORT. What runs on the working registers is the spec's pure functions: one lemma per register-level operation
(spec/10_state.md R22, R23; spec/44_cipher_engine.md R230). None of them assumes anything about what the registers held. -/

namespace Sys2Proof.Machine

open Sys2Proof

/-! ### Diffusion -/

/-- A dot product through `ACC` is the pure one, and writes only `ACC`. -/
theorem Work.rowTimesColumn_eq (w : Work) (m v : Word) :
    w.rowTimesColumn m v = (Machine.rowTimesColumn m v, w.setAcc (accAfter m[3] v[3])) := by
  simp [Work.rowTimesColumn, Work.multiply_eq, Machine.rowTimesColumn]

/-- Setting the elements of a vector one after another. -/
theorem foldl_set_eq {α : Type} {n : Nat} (f : Fin n → α) (l : List (Fin n)) (v : Vector α n) (i : Fin n) :
    (l.foldl (fun v j => v.set j.val (f j)) v)[i.val] = if i ∈ l then f i else v[i.val] := by
  induction l generalizing v with
  | nil => simp
  | cons j l ih =>
    rw [List.foldl_cons, ih]
    by_cases h : i ∈ l
    · simp [h]
    · by_cases hij : i = j
      · subst hij; simp
      · have : j.val ≠ i.val := fun h => hij (Fin.ext h.symm)
        simp [h, hij, Vector.getElem_set_ne, this]

theorem Work.mixColumnsAt_foldl (m : Vector Word 4) (b : Block) (l : List (Fin 16)) (out : Block) (w : Work) :
    ∃ c, l.foldl (Work.mixColumnsAt m b) (out, w) =
      (l.foldl (fun v i => v.set i.val (Machine.rowTimesColumn m[i.val % 4] (column b ⟨i.val / 4, by omega⟩))) out,
        w.setAcc c) := by
  induction l generalizing out w with
  | nil => exact ⟨w.acc, rfl⟩
  | cons i l ih =>
    simp only [List.foldl_cons, Work.mixColumnsAt, Work.rowTimesColumn_eq]
    obtain ⟨c, hc⟩ := ih (out.set i.val (Machine.rowTimesColumn m[i.val % 4] (column b ⟨i.val / 4, by omega⟩)))
      (w.setAcc (accAfter (m[i.val % 4])[3] (column b ⟨i.val / 4, by omega⟩)[3]))
    exact ⟨c, hc⟩

/-- The diffusion through `ACC` is the pure one, and writes only `ACC`. -/
theorem Work.mixColumns_eq (w : Work) (m : Vector Word 4) (b : Block) :
    ∃ c, w.mixColumns m b = (Machine.mixColumns m b, w.setAcc c) := by
  obtain ⟨c, hc⟩ := Work.mixColumnsAt_foldl m b (List.finRange 16) (Vector.replicate 16 0) w
  refine ⟨c, ?_⟩
  rw [Work.mixColumns, hc, Prod.mk.injEq]
  refine ⟨?_, rfl⟩
  ext i hi
  rw [foldl_set_eq (fun i : Fin 16 => Machine.rowTimesColumn m[i.val % 4] (column b ⟨i.val / 4, by omega⟩))
    _ _ ⟨i, hi⟩]
  simp [Machine.mixColumns]

@[simp] theorem Work.mixColumns_fst (w : Work) (m : Vector Word 4) (b : Block) :
    (w.mixColumns m b).1 = Machine.mixColumns m b := by
  obtain ⟨c, hc⟩ := w.mixColumns_eq m b
  rw [hc]

/-! ### Key expansion -/

theorem Work.loadKeyWords_store (w : Work) :
    ∀ i : Fin 44, w.loadKeyWords.store[i.val] =
      if h : i.val < 4 then keyGroup w.keyr ⟨i.val, h⟩ else w.store[i.val] := by
  have hk : ∀ (l : List (Fin 4)) (w' : Work), w'.keyr = w.keyr →
      (l.foldl (fun w j => w.setWord ⟨j.val, by omega⟩ (keyGroup w.keyr j)) w').store =
        l.foldl (fun v j => v.set j.val (keyGroup w.keyr j)) w'.store := by
    intro l
    induction l with
    | nil => intro w' _; rfl
    | cons j l ih =>
      intro w' h
      rw [List.foldl_cons, List.foldl_cons, ih _ (by simpa using h)]
      simp [h]
  intro i
  rw [Work.loadKeyWords, hk _ w rfl]
  simp only [List.finRange_succ, List.finRange_zero, List.map_cons, List.map_nil, List.foldl_cons, List.foldl_nil]
  obtain ⟨i, hi⟩ := i
  simp only [Vector.getElem_set]
  rcases i with _ | _ | _ | _ | i <;> simp

theorem keyWords_getElem (key : Block) (i : Fin 44) (h : i.val < 4) :
    (keyWords key)[i.val] = keyGroup key ⟨i.val, h⟩ := by
  obtain ⟨i, hi⟩ := i
  simp only [keyWords, List.finRange_succ, List.finRange_zero, List.map_cons, List.map_nil, List.foldl_cons,
    List.foldl_nil, Vector.getElem_set]
  rcases i with _ | _ | _ | _ | i
  · simp
  · simp
  · simp
  · simp
  · exact absurd h (by simp)

@[simp] theorem Work.expandStep_store (w : Work) (i : WordIndex) :
    (w.expandStep i).store = Machine.expandStep w.store i := by
  simp [Work.expandStep, Machine.expandStep]

/-- Every step of key expansion leaves the working registers it does not write as they were, and `KEYR`. -/
theorem Work.foldl_expandStep_store (l : List WordIndex) (w : Work) :
    (l.foldl Work.expandStep w).store = l.foldl Machine.expandStep w.store := by
  induction l generalizing w with
  | nil => rfl
  | cons i l ih => rw [List.foldl_cons, ih, Work.expandStep_store, List.foldl_cons]

theorem wordIndices_take_succ {n : Nat} (h : n < 40) :
    wordIndices.take (n + 1) = wordIndices.take n ++ [⟨n + 4, by omega, by omega⟩] := by
  rw [List.take_succ_eq_append_getElem (by simpa [wordIndices] using h)]
  simp [wordIndices]

/-- A step reads only earlier Words: stores that agree below index 4 agree below `4 + n` after `n` steps (R23). -/
theorem expandStep_agree {u v : Words44} (huv : ∀ j, (h : j < 4) → u[j] = v[j]) :
    ∀ n, n ≤ 40 → ∀ j, (h : j < 44) → j < 4 + n →
      ((wordIndices.take n).foldl Machine.expandStep u)[j] = ((wordIndices.take n).foldl Machine.expandStep v)[j] := by
  intro n
  induction n with
  | zero => intro _ j _ hj; simpa using huv j (by omega)
  | succ n ih =>
    intro hn j hj hlt
    have ih' := ih (by omega)
    rw [wordIndices_take_succ (by omega), List.foldl_append, List.foldl_append, List.foldl_cons, List.foldl_nil,
      List.foldl_cons, List.foldl_nil, Machine.expandStep, Machine.expandStep]
    rw [Vector.getElem_set, Vector.getElem_set]
    split
    · have e1 := ih' n (by omega) (by omega)
      have e3 := ih' (n + 3) (by omega) (by omega)
      simp only [show n + 4 - 4 = n by omega, show n + 4 - 1 = n + 3 by omega] at *
      rw [e1, e3]
    · rename_i hne
      have hne' : n + 4 ≠ j := hne
      exact ih' j hj (by omega)

/-- Key expansion on the working registers leaves `expand(key)` in `W`, whatever they held (R193, R23). -/
theorem Work.expand_store (w : Work) (key : Block) : (w.expand key).store = Machine.expand key := by
  have ht : wordIndices.take 40 = wordIndices := List.take_of_length_le (by simp [wordIndices])
  have hkey : ∀ j, (h : j < 4) → (w.setKeyr key).loadKeyWords.store[j] = (keyWords key)[j] := by
    intro j h
    rw [Work.loadKeyWords_store _ ⟨j, by omega⟩, keyWords_getElem key ⟨j, by omega⟩ h]
    simp [h]
  rw [Work.expand, Work.foldl_expandStep_store, Machine.expand]
  ext1 j hj
  have := expandStep_agree hkey 40 (by omega) j hj (by omega)
  rwa [ht] at this

theorem Work.expand_roundKey (w : Work) (key : Block) (r : Fin 11) :
    (w.expand key).roundKey r = (schedule key)[r.val] := by
  simp [Work.roundKey, Work.expand_store, schedule, reshape]

/-! ### Rounds: what each leaves in `STATE`, and the schedule as it was -/

theorem Work.diffuse_eq (w : Work) : ∃ c, w.diffuse = (w.setAcc c).setState (Machine.diffuse w.state) := by
  obtain ⟨c, hc⟩ := w.mixColumns_eq forwardMatrix w.state
  exact ⟨c, by rw [Work.diffuse, hc]; rfl⟩

theorem Work.invDiffuse_eq (w : Work) : ∃ c, w.invDiffuse = (w.setAcc c).setState (Machine.invDiffuse w.state) := by
  obtain ⟨c, hc⟩ := w.mixColumns_eq inverseMatrix w.state
  exact ⟨c, by rw [Work.invDiffuse, hc]; rfl⟩

@[simp] theorem Work.diffuse_state (w : Work) : w.diffuse.state = Machine.diffuse w.state := by
  obtain ⟨c, hc⟩ := w.diffuse_eq; rw [hc]; rfl

@[simp] theorem Work.diffuse_store (w : Work) : w.diffuse.store = w.store := by
  obtain ⟨c, hc⟩ := w.diffuse_eq; rw [hc]; rfl

@[simp] theorem Work.diffuse_rnd (w : Work) : w.diffuse.rnd = w.rnd := by
  obtain ⟨c, hc⟩ := w.diffuse_eq; rw [hc]; rfl

@[simp] theorem Work.invDiffuse_state (w : Work) : w.invDiffuse.state = Machine.invDiffuse w.state := by
  obtain ⟨c, hc⟩ := w.invDiffuse_eq; rw [hc]; rfl

@[simp] theorem Work.invDiffuse_store (w : Work) : w.invDiffuse.store = w.store := by
  obtain ⟨c, hc⟩ := w.invDiffuse_eq; rw [hc]; rfl

@[simp] theorem Work.invDiffuse_rnd (w : Work) : w.invDiffuse.rnd = w.rnd := by
  obtain ⟨c, hc⟩ := w.invDiffuse_eq; rw [hc]; rfl

@[simp] theorem Work.forwardRound_state (w : Work) (r : Fin 11) :
    (w.forwardRound r).state = Machine.forwardRound w.state (roundKeyOf w.store r) := by
  simp [Work.forwardRound, Work.substituteBytes, Work.permuteRows, Work.mixRoundKey, Work.roundKey,
    Machine.forwardRound]

@[simp] theorem Work.forwardRound_store (w : Work) (r : Fin 11) : (w.forwardRound r).store = w.store := by
  simp [Work.forwardRound, Work.substituteBytes, Work.permuteRows, Work.mixRoundKey]

@[simp] theorem Work.inverseRound_state (w : Work) (r : Fin 11) :
    (w.inverseRound r).state = Machine.inverseRound w.state (roundKeyOf w.store r) := by
  simp [Work.inverseRound, Work.invSubstituteBytes, Work.invPermuteRows, Work.mixRoundKey, Work.roundKey,
    Machine.inverseRound]

@[simp] theorem Work.inverseRound_store (w : Work) (r : Fin 11) : (w.inverseRound r).store = w.store := by
  simp [Work.inverseRound, Work.invSubstituteBytes, Work.invPermuteRows, Work.mixRoundKey]

theorem roundKeyOf_expand (key : Block) (r : Fin 11) : roundKeyOf (Machine.expand key) r = (schedule key)[r.val] := by
  simp [schedule, reshape]

/-- ENC's state machine leaves `encrypt(plain, key)` in `STATE`, whatever the registers held (R220, R221, R23). -/
theorem Work.encrypt_state (w : Work) (plain key : Block) :
    (w.encrypt plain key).state = Machine.encrypt plain key := by
  simp [Work.encrypt, Work.substituteBytes, Work.permuteRows, Work.mixRoundKey, Work.roundKey, Work.expand_store,
    roundKeyOf_expand, Machine.encrypt, encState, finalRound]

/-- DEC's state machine leaves `decrypt(cipher, key)` in `STATE`, whatever the registers held (R223, R224, R23). -/
theorem Work.decrypt_state (w : Work) (cipher key : Block) :
    (w.decrypt cipher key).state = Machine.decrypt cipher key := by
  simp [Work.decrypt, Work.invSubstituteBytes, Work.invPermuteRows, Work.mixRoundKey, Work.roundKey, Work.expand_store,
    roundKeyOf_expand, Machine.decrypt, decStateAfter, inverseFinalRound]

/-- PROUND leaves `partialRound(state, key, round, selector)` in `STATE`, whatever the registers held (R226, R23). -/
theorem Work.partialRound_state (w : Work) (st key : Block) (r : Fin 11) (h : 1 ≤ r.val ∧ r.val ≤ 10)
    (sel : RoundSelector) :
    (w.partialRound st key r sel).state = Machine.partialRound st key r.val h sel := by
  have h10 : (r = 10) ↔ r.val = 10 := by
    constructor
    · rintro rfl; rfl
    · intro h; exact Fin.ext h
  cases sel <;> by_cases hr : r.val = 10 <;>
    simp [Work.partialRound, Work.substituteBytes, Work.permuteRows, Work.mixRoundKey, Work.roundKey,
      Work.expand_store, roundKeyOf_expand, Machine.partialRound, h10, hr]

end Sys2Proof.Machine
end

