-- ==== Sys2Proof/Laws/Commands.lean ====
section
/-! SUPPORT. The meanings that run on the working registers, with the registers gone: one lemma per such meaning, and what
the two ways to end a command leave. Later proofs cite these and do not unfold the register-level operations. -/

namespace Sys2Proof.Machine

open Sys2Proof

/-! ### Ending a command -/

/-- An `Ok` response drops the working registers, so what they held last is nowhere in the next state (R21, R22). -/
@[simp] theorem State.withWork_respondOk (s : State) (w : Work) (r : Result) :
    (s.withWork w).respondOk r = s.respondOk r := rfl

theorem responded_respondOk (s : State) (r : Result) : Responded s (s.respondOk r) (.ok r) :=
  ⟨rfl, rfl, rfl, rfl, rfl⟩

theorem responded_raise (s : State) (k : ErrorKind) : Responded s (s.raise k) (.err k) :=
  ⟨rfl, rfl, rfl, rfl, rfl⟩

theorem raise_eq_failed (s : State) (k : ErrorKind) : s.raise k = failed s k := rfl

/-- An `Ok` next state is no failure. -/
theorem respondOk_ne_failed (s : State) (r : Result) (k : ErrorKind) : s.respondOk r ≠ failed s k := by
  intro h
  have := congrArg State.response h
  simp [failed] at this

/-- Two failures of one state are equal only if their kinds are. -/
theorem failed_inj {s : State} {k k' : ErrorKind} (h : failed s k = failed s k') : k = k' := by
  have := congrArg State.response h
  simpa [failed] using this

/-! ### The meanings that use the registers -/

theorem execGmul_eq (s : State) : execGmul s = .next (s.respondOk (.byte (multiply s.a.byte s.b.byte))) := by
  rw [execGmul, Work.multiply_eq]
  rfl

theorem execDiff_eq (s : State) :
    execDiff s = withBlockA s fun b => .next (s.respondOk (.block (diffuse b))) := by
  simp only [execDiff, Work.mixColumns_fst, State.withWork_respondOk]
  rfl

theorem execIdiff_eq (s : State) :
    execIdiff s = withBlockA s fun b => .next (s.respondOk (.block (invDiffuse b))) := by
  simp only [execIdiff, Work.mixColumns_fst, State.withWork_respondOk]
  rfl

theorem execExpand_eq (s : State) :
    execExpand s = withBlockA s fun key => .next (s.respondOk (.words44 (expand key))) := by
  simp only [execExpand, Work.expand_store, State.withWork_respondOk]

theorem execReshape_eq (s : State) : execReshape s = .next (s.respondOk (.sched (reshape s.a.words44))) := rfl

theorem execEnc_eq (s : State) :
    execEnc s = withBlocksAB s fun p k => .next (s.respondOk (.block (encrypt p k))) := by
  simp only [execEnc, Work.encrypt_state, State.withWork_respondOk]

theorem execDec_eq (s : State) :
    execDec s = withBlocksAB s fun c k => .next (s.respondOk (.block (decrypt c k))) := by
  simp only [execDec, Work.decrypt_state, State.withWork_respondOk]

theorem execPround_eq (round : BitVec 4) (sel : RoundSelector) (s : State) :
    execPround round sel s = withBlocksAB s fun st k =>
      if h : 1 ≤ round.toNat ∧ round.toNat ≤ 10 then
        .next (s.respondOk (.block (partialRound st k round.toNat h sel)))
      else .next (s.raise .invalidRoundIndex) := by
  unfold execPround
  congr 1
  funext st k
  split
  · rename_i h
    simp only [State.withWork_respondOk, Work.partialRound_state _ _ _ (⟨round.toNat, by omega⟩ : Fin 11) h]
  · rfl

end Sys2Proof.Machine
end

