-- ==== Sys2Proof/Laws/Decode.lean ====
section
/-! SUPPORT. A command word is its four fields, and the fields as numbers (spec/30_encoding.md R81). -/

namespace Sys2Proof

/-- A word is `ZERO ++ SEL ++ ROUND ++ OP`. -/
theorem commandWord_fields (w : CommandWord) :
    w = (fieldZero w ++ fieldSel w ++ fieldRound w ++ fieldOp w : BitVec 16) := by
  apply BitVec.eq_of_getLsbD_eq
  intro i hi
  simp only [fieldZero, fieldSel, fieldRound, fieldOp, BitVec.getLsbD_append, BitVec.getLsbD_extractLsb']
  interval_cases i <;> rfl

theorem fieldOp_toNat (w : CommandWord) : (fieldOp w).toNat = w.toNat % 32 := by
  simp [fieldOp]

theorem fieldRound_toNat (w : CommandWord) : (fieldRound w).toNat = w.toNat / 32 % 16 := by
  simp [fieldRound, Nat.shiftRight_eq_div_pow]

theorem fieldSel_toNat (w : CommandWord) : (fieldSel w).toNat = w.toNat / 512 % 8 := by
  simp [fieldSel, Nat.shiftRight_eq_div_pow]

theorem fieldZero_toNat (w : CommandWord) : (fieldZero w).toNat = w.toNat / 4096 := by
  simp [fieldZero, Nat.shiftRight_eq_div_pow]
  omega

end Sys2Proof
end

