-- ==== Sys2Proof/Laws/PerInstr.lean ====
section
/-! SUPPORT. The per-instruction family `EncodeFields`: the encoder leaves `ZERO` zero and gives an opcode of the map
(spec/30_encoding.md R81, R83). -/

namespace Sys2Proof.Laws.EncodeFields

open Sys2Proof

/-- The encoding's `ZERO` field is 0000 and its `OP` lies in 0x01..0x18. -/
def Statement (i : Instr) : Prop :=
  fieldZero (encode i) = 0 ∧ 0x01 ≤ (fieldOp (encode i)).toNat ∧ (fieldOp (encode i)).toNat ≤ 0x18

theorem gmul : Statement .gmul := by unfold Statement; decide

theorem gred : Statement .gred := by unfold Statement; decide

theorem sbox : Statement .sbox := by unfold Statement; decide

theorem isbox : Statement .isbox := by unfold Statement; decide

theorem rcon (j : BitVec 4) : Statement (.rcon j) := by
  revert j; unfold Statement; decide

theorem shift : Statement .shift := by unfold Statement; decide

theorem ishift : Statement .ishift := by unfold Statement; decide

theorem subb : Statement .subb := by unfold Statement; decide

theorem isubb : Statement .isubb := by unfold Statement; decide

theorem perm : Statement .perm := by unfold Statement; decide

theorem iperm : Statement .iperm := by unfold Statement; decide

theorem diff : Statement .diff := by unfold Statement; decide

theorem idiff : Statement .idiff := by unfold Statement; decide

theorem mixk : Statement .mixk := by unfold Statement; decide

theorem rotw : Statement .rotw := by unfold Statement; decide

theorem subw : Statement .subw := by unfold Statement; decide

theorem expand : Statement .expand := by unfold Statement; decide

theorem reshape : Statement .reshape := by unfold Statement; decide

theorem rkey (r : BitVec 4) : Statement (.rkey r) := by
  revert r; unfold Statement; decide

theorem enc : Statement .enc := by unfold Statement; decide

theorem dec : Statement .dec := by unfold Statement; decide

theorem pround (round : BitVec 4) (sel : RoundSelector) : Statement (.pround round sel) := by
  cases sel <;> revert round <;> unfold Statement <;> decide

theorem parse : Statement .parse := by unfold Statement; decide

theorem render : Statement .render := by unfold Statement; decide

end Sys2Proof.Laws.EncodeFields
end

