-- ==== Sys2Proof/Laws/Programs.lean ====
section
/-! SUPPORT. Programs: the lane a result is handed on to, everything running a line can do, that a run is at the program's
end, and that a program runs in parts (spec/70_reset_and_hazards.md R312). -/

namespace Sys2Proof.Machine

open Sys2Proof

/-! ### A result as an operand -/

@[simp] theorem loadA_byte (p : PortA) (v : Byte) : (loadA p (.byte v)).byte = v := rfl

@[simp] theorem loadA_idx4 (p : PortA) (v : BitVec 4) : (loadA p (.idx4 v)).idx4 = v := rfl

@[simp] theorem loadA_word (p : PortA) (v : Word) : (loadA p (.word v)).word = v := rfl

@[simp] theorem loadA_block (p : PortA) (v : Block) : (loadA p (.block v)).block = v.toList := rfl

@[simp] theorem loadA_words44 (p : PortA) (v : Words44) : (loadA p (.words44 v)).words44 = v := rfl

@[simp] theorem loadA_sched (p : PortA) (v : Sched) : (loadA p (.sched v)).sched = v := rfl

@[simp] theorem loadA_bits128 (p : PortA) (v : Vector BitChar 128) : (loadA p (.bits128 v)).bits = v.toList := rfl

/-- The two results that go on port `B`: everything `loadB` can do. -/
theorem loadB_some_iff (p q : PortB) (r : Result) :
    loadB p r = some q ↔
      (∃ v, r = .byte v ∧ q = { p with byte := v }) ∨ (∃ v, r = .block v ∧ q = { p with block := v.toList }) := by
  cases r <;> simp [loadB, eq_comm]

theorem resultOf_some_iff (responses : List Response) (line : Nat) (res : Result) :
    resultOf responses line = some res ↔ responses[line]? = some (.ok res) := by
  unfold resultOf
  split <;> simp_all

/-! ### A line -/

/-- Everything a step with a response says. -/
theorem respondedStep_some_iff (s t : State) (r : Response) :
    respondedStep s = some (t, r) ↔ step s = .next t ∧ t.response = some r := by
  unfold respondedStep
  cases step s with
  | next u =>
    simp only [Option.map_eq_some_iff, Prod.mk.injEq, Host.Outcome.next.injEq]
    constructor
    · rintro ⟨_, hr, rfl, rfl⟩
      exact ⟨rfl, hr⟩
    · rintro ⟨rfl, hr⟩
      exact ⟨r, hr, rfl, rfl⟩
  | fault f => cases f
  | refused _ => simp

/-- Everything an operand of port `A` can be: written in the line, or a result there of the shape the command takes. -/
theorem operandA_some_iff (i : Instr) (responses : List Response) (o : ProgramOperand PortA) (a : PortA) :
    operandA i responses o = some a ↔
      o = .given a ∨ ∃ line res, o = .result line ∧ responses[line]? = some (.ok res) ∧
        shapeOnA i = some (resultShape res) ∧ loadA PortA.reset res = a := by
  cases o <;> simp [operandA, Option.bind_eq_some_iff, resultOf_some_iff]

/-- Everything an operand of port `B` can be. -/
theorem operandB_some_iff (i : Instr) (responses : List Response) (o : ProgramOperand PortB) (b : PortB) :
    operandB i responses o = some b ↔
      o = .given b ∨ ∃ line res, o = .result line ∧ responses[line]? = some (.ok res) ∧
        shapeOnB i = some (resultShape res) ∧ loadB PortB.reset res = some b := by
  cases o <;> simp [operandB, Option.bind_eq_some_iff, resultOf_some_iff]

/-- A result of the shape a command takes on port `B` has a lane there. -/
theorem loadB_isSome_of_shapeOnB {i : Instr} {res : Result} (h : shapeOnB i = some (resultShape res)) (p : PortB) :
    (loadB p res).isSome = true := by
  cases i <;> cases res <;> first | rfl | simp [shapeOnB, resultShape] at h

/-- Everything running a line can do: its word is a command, its operands are there, the engine accepts it, and it
responds. -/
theorem runLine_some_iff (s t : State) (responses : List Response) (l : ProgramLine) (r : Response) :
    runLine s responses l = some (t, r) ↔
      ∃ i a b u, decode l.cw = .ok i ∧ operandA i responses l.a = some a ∧ operandB i responses l.b = some b ∧
        s.issue l.cw a b = some u ∧ step u = .next t ∧ t.response = some r := by
  unfold runLine
  cases decode l.cw with
  | error _ => simp
  | ok i =>
    cases hA : operandA i responses l.a <;> cases hB : operandB i responses l.b <;>
      simp [hA, hB, Option.bind_eq_some_iff, respondedStep_some_iff]

/-! ### A program -/

/-- A run of the lines that are left adds one response per line. -/
theorem runLines_length {p : Program} {s t : State} {before after : List Response}
    (h : runLines p s before = some (t, after)) : after.length = before.length + p.length := by
  induction p generalizing s before with
  | nil =>
    cases h
    simp
  | cons l rest ih =>
    rw [runLines] at h
    split at h
    · rw [ih h]
      simp
      omega
    · cases h

/-- A run of a program is at its end. -/
theorem programEnded_of_runProgram {p : Program} {s t : State} {responses : List Response}
    (h : runProgram p s = some (t, responses)) : programEnded p responses = true := by
  simp [programEnded, runLines_length h]

/-- A program runs in parts: the later lines see the responses of the earlier ones. -/
theorem runLines_append (p q : Program) (s : State) (responses : List Response) :
    runLines (p ++ q) s responses = (runLines p s responses).bind fun x => runLines q x.1 x.2 := by
  induction p generalizing s responses with
  | nil => rfl
  | cons l rest ih =>
    rw [List.cons_append, runLines, runLines]
    split
    · exact ih _ _
    · rfl

end Sys2Proof.Machine
end

