-- ==== Sys2Proof/Laws/Transforms.lean ====
section
/-! SUPPORT. The small lemmas of the pure functions on Words and Blocks: each element of each result, so that no proof
unfolds them (spec/42_round_transforms.md, spec/43_key_schedule.md). -/

namespace Sys2Proof.Machine

open Sys2Proof

theorem block_ext {x y : Block} (h : ∀ i : Fin 16, x[i.val] = y[i.val]) : x = y := by
  ext1 i hi
  exact h ⟨i, hi⟩

theorem word_ext {x y : Word} (h : ∀ j : Fin 4, x[j.val] = y[j.val]) : x = y := by
  ext1 j hj
  exact h ⟨j, hj⟩

/-! ### Views -/

@[simp] theorem column_getElem (b : Block) (c : Fin 4) (k : Nat) (hk : k < 4) :
    (column b c)[k] = b[4 * c.val + k] := by simp [column]

theorem column_getElem_eq_entry (b : Block) (c k : Fin 4) : (column b c)[k.val] = entry b k c := by
  simp [entry, Nat.add_comm]

/-! ### Transforms, byte by byte -/

@[simp] theorem substituteBytes_getElem (b : Block) (i : Nat) (h : i < 16) :
    (substituteBytes b)[i] = romS b[i] := by simp [substituteBytes]

@[simp] theorem invSubstituteBytes_getElem (b : Block) (i : Nat) (h : i < 16) :
    (invSubstituteBytes b)[i] = romInvS b[i] := by simp [invSubstituteBytes]

theorem permuteRows_getElem (b : Block) (i : Fin 16) :
    (permuteRows b)[i.val] = b[(romShift (BitVec.ofFin i)).toNat]'(BitVec.isLt _) := by simp [permuteRows]

theorem invPermuteRows_getElem (b : Block) (i : Fin 16) :
    (invPermuteRows b)[i.val] = b[(romInvShift (BitVec.ofFin i)).toNat]'(BitVec.isLt _) := by simp [invPermuteRows]

@[simp] theorem mixRoundKey_getElem (b k : Block) (i : Nat) (h : i < 16) :
    (mixRoundKey b k)[i] = b[i] ^^^ k[i] := by simp [mixRoundKey]

/-- One entry of a diffusion: matrix row `r` times column `c`. -/
theorem mixColumns_entry (m : Vector Word 4) (b : Block) (r c : Fin 4) :
    entry (mixColumns m b) r c = rowTimesColumn m[r.val] (column b c) := by
  simp only [entry, mixColumns, Vector.getElem_ofFn]
  congr 1
  · congr 1
    omega
  · congr 1
    ext
    simp
    omega

/-- One column of a diffusion. -/
theorem mixColumns_column (m : Vector Word 4) (b : Block) (c : Fin 4) :
    column (mixColumns m b) c = Vector.ofFn fun r => rowTimesColumn m[r.val] (column b c) := by
  apply word_ext
  intro r
  rw [column_getElem_eq_entry, mixColumns_entry, Vector.getElem_ofFn]

/-- A Block is its four columns. -/
theorem block_ext_columns {x y : Block} (h : ∀ c : Fin 4, column x c = column y c) : x = y := by
  apply block_ext
  intro i
  have := congrArg (fun w : Word => w[i.val % 4]) (h ⟨i.val / 4, by omega⟩)
  simp only [column_getElem, Nat.div_add_mod] at this
  exact this

/-! ### Words -/

@[simp] theorem substituteWord_getElem (w : Word) (j : Nat) (h : j < 4) : (substituteWord w)[j] = romS w[j] := by
  simp [substituteWord]

@[simp] theorem xorWord_getElem (u v : Word) (j : Nat) (h : j < 4) : (xorWord u v)[j] = u[j] ^^^ v[j] := by
  simp [xorWord]

@[simp] theorem keyGroup_getElem (key : Block) (j : Fin 4) (k : Nat) (h : k < 4) :
    (keyGroup key j)[k] = key[4 * j.val + k] := by simp [keyGroup]

/-- `RK[r][4j + k] = W[4r + j][k]` (R28). -/
theorem roundKeyOf_getElem (w : Words44) (r : Fin 11) (j k : Fin 4) :
    (roundKeyOf w r)[4 * j.val + k.val] = (w[4 * r.val + j.val])[k.val] := by
  simp only [roundKeyOf, Vector.getElem_ofFn]
  congr 2 <;> omega

/-- Column `j` of round key `r` is Word `4r + j` (R195). -/
theorem roundKeyOf_column (w : Words44) (r : Fin 11) (j : Fin 4) : column (roundKeyOf w r) j = w[4 * r.val + j.val] := by
  apply word_ext
  intro k
  rw [column_getElem, roundKeyOf_getElem w r j k]

theorem schedule_getElem (key : Block) (r : Nat) (h : r < 11) :
    (schedule key)[r] = roundKeyOf (expand key) ⟨r, h⟩ := by simp [schedule, reshape]

end Sys2Proof.Machine
end

