-- ==== Sys2Proof/Tests/Slice0.lean ====
section
/-! SUPPORT. Tests of the model: the WellFormed smoke, the decoding of every command from a word written out from the
encoding (spec/95_test_vectors.md section 12), one or two single-step tests per command and three short programs with
expected results from spec/95_test_vectors.md sections 2 to 11, and a witness for the hypotheses of every obligation that
has some. -/

namespace Sys2Proof.Tests

open Sys2Proof Sys2Proof.Machine

set_option Elab.async false

/-! ### WellFormed: the one check, and terms it refuses (spec/41_tables.md R137) -/

theorem test_rcon_index_zero_ill_formed : (Instr.rcon 0).wellFormed = false := by decide

theorem test_rcon_index_eleven_ill_formed : (Instr.rcon 11).wellFormed = false := by decide

theorem test_out_of_range_rounds_well_formed :
    (Instr.rkey 11).wellFormed = true ∧ (Instr.pround 0 .full).wellFormed = true := by decide

/-! ### Decoding, from words written out bit by bit (R81: ZERO, SEL, ROUND, OP) -/

theorem test_decode_gmul : decode 0b0000000000000001 = .ok (.gmul) := by decide

theorem test_decode_gred : decode 0b0000000000000010 = .ok (.gred) := by decide

theorem test_decode_sbox : decode 0b0000000000000011 = .ok (.sbox) := by decide

theorem test_decode_isbox : decode 0b0000000000000100 = .ok (.isbox) := by decide

theorem test_decode_rcon : decode 0b0000000101000101 = .ok (.rcon 10) := by decide

theorem test_decode_shift : decode 0b0000000000000110 = .ok (.shift) := by decide

theorem test_decode_ishift : decode 0b0000000000000111 = .ok (.ishift) := by decide

theorem test_decode_subb : decode 0b0000000000001000 = .ok (.subb) := by decide

theorem test_decode_isubb : decode 0b0000000000001001 = .ok (.isubb) := by decide

theorem test_decode_perm : decode 0b0000000000001010 = .ok (.perm) := by decide

theorem test_decode_iperm : decode 0b0000000000001011 = .ok (.iperm) := by decide

theorem test_decode_diff : decode 0b0000000000001100 = .ok (.diff) := by decide

theorem test_decode_idiff : decode 0b0000000000001101 = .ok (.idiff) := by decide

theorem test_decode_mixk : decode 0b0000000000001110 = .ok (.mixk) := by decide

theorem test_decode_rotw : decode 0b0000000000001111 = .ok (.rotw) := by decide

theorem test_decode_subw : decode 0b0000000000010000 = .ok (.subw) := by decide

theorem test_decode_expand : decode 0b0000000000010001 = .ok (.expand) := by decide

theorem test_decode_reshape : decode 0b0000000000010010 = .ok (.reshape) := by decide

theorem test_decode_rkey : decode 0b0000000101110011 = .ok (.rkey 11) := by decide

theorem test_decode_enc : decode 0b0000000000010100 = .ok (.enc) := by decide

theorem test_decode_dec : decode 0b0000000000010101 = .ok (.dec) := by decide

theorem test_decode_pround : decode 0b0000100101010110 = .ok (.pround 10 .omitKey) := by decide

theorem test_decode_parse : decode 0b0000000000010111 = .ok (.parse) := by decide

theorem test_decode_render : decode 0b0000000000011000 = .ok (.render) := by decide

theorem test_decode_pround_round_zero : decode 0b0000000000010110 = .ok (.pround 0 .full) := by decide

theorem test_decode_reserved_opcodes :
    decode 0x0000 = .error .opcode ∧ decode 0x0019 = .error .opcode ∧ decode 0x001F = .error .opcode := by decide

theorem test_decode_reserved_unused_fields :
    decode 0x0021 = .error .roundUnused ∧ decode 0x0201 = .error .selUnused ∧ decode 0x0213 = .error .selUnused := by
  decide

theorem test_decode_reserved_rcon_indices :
    decode 0x0005 = .error .rconIndex ∧ decode 0x0165 = .error .rconIndex ∧ decode 0x01E5 = .error .rconIndex := by
  decide

theorem test_decode_reserved_selectors :
    decode 0x0A36 = .error .selCode ∧ decode 0x0C36 = .error .selCode ∧ decode 0x0E36 = .error .selCode := by decide

theorem test_decode_reserved_zero_field :
    decode 0x1001 = .error .zeroField ∧ decode 0x8014 = .error .zeroField ∧ decode 0xFFFF = .error .zeroField := by decide

theorem test_decode_table_word : decodeTableWord 16 0x0636 = some (.pround 1 .omitDiff) ∧
    decodeTableWord 16 0x0005 = none ∧ decodeTableWord 16 0x10001 = some .gmul := by decide

/-! ### Single steps

`onReset cw a b` is the step of the engine after reset with this word in flight and these operands on its ports; only the
response is looked at. -/

/-- The engine right after reset with a command in flight. -/
def loaded (cw : CommandWord) (a : PortA) (b : PortB) : State :=
  { State.reset with inFlight := true, cw := cw, a := a, b := b }

/-- The response of one command on the engine after reset. -/
def onReset (cw : CommandWord) (a : PortA) (b : PortB) : Option Response := answer (step (loaded cw a b))

/-- Port `A` with a byte. -/
def byteA (x : Byte) : PortA := { PortA.reset with byte := x }

/-- Port `A` with an index. -/
def idxA (i : BitVec 4) : PortA := { PortA.reset with idx4 := i }

/-- Port `A` with a Block. -/
def blockA (n : Nat) : PortA := { PortA.reset with block := (hexBlock n).toList }

/-- Port `A` with a byte string of any length. -/
def bytesA (l : List Byte) : PortA := { PortA.reset with block := l }

/-- Port `B` with a Block. -/
def blockB (n : Nat) : PortB := { PortB.reset with block := (hexBlock n).toList }

/-- Port `B` with a byte string of any length. -/
def bytesB (l : List Byte) : PortB := { PortB.reset with block := l }

/-- Port `A` with a Word. -/
def wordA (n : Nat) : PortA := { PortA.reset with word := hexWord n }

/-- Port `A` with a bit string. -/
def bitsA (l : List BitChar) : PortA := { PortA.reset with bits := l }

/-- Port `A` with the schedule of a key. -/
def schedA (n : Nat) : PortA := { PortA.reset with sched := schedule (hexBlock n) }

/-- The key of the second expansion of section 7. -/
def keyC1 : Nat := 0x000102030405060708090a0b0c0d0e0f

/-- spec/95_test_vectors.md section 2. -/
theorem test_gmul_reduces : onReset 0x0001 (byteA 0x57) { PortB.reset with byte := 0x83 } =
    some (.ok (.byte 0xC1)) := by decide +kernel

/-- spec/95_test_vectors.md section 2. -/
theorem test_gmul_all_ones : onReset 0x0001 (byteA 0xFF) { PortB.reset with byte := 0xFF } =
    some (.ok (.byte 0x13)) := by decide +kernel

/-- spec/95_test_vectors.md section 3. -/
theorem test_gred_six_passes : onReset 0x0002 { PortA.reset with u16 := 0x7FFF } PortB.reset = some (.ok (.byte 0x1A)) := by decide +kernel

/-- spec/95_test_vectors.md section 3. -/
theorem test_gred_sixteen_bits : onReset 0x0002 { PortA.reset with u16 := 0x8000 } PortB.reset = some (.ok (.byte 0x2F)) := by decide +kernel

/-- spec/95_test_vectors.md section 4. -/
theorem test_sbox : onReset 0x0003 (byteA 0x53) PortB.reset = some (.ok (.byte 0xED)) := by decide +kernel

/-- spec/95_test_vectors.md section 4. -/
theorem test_sbox_last : onReset 0x0003 (byteA 0xFF) PortB.reset = some (.ok (.byte 0x16)) := by decide +kernel

/-- spec/95_test_vectors.md section 4. -/
theorem test_isbox : onReset 0x0004 (byteA 0x10) PortB.reset = some (.ok (.byte 0x7C)) := by decide +kernel

/-- spec/95_test_vectors.md section 4. -/
theorem test_isbox_last : onReset 0x0004 (byteA 0xFF) PortB.reset = some (.ok (.byte 0x7D)) := by decide +kernel

/-- spec/95_test_vectors.md section 4. -/
theorem test_rcon_first : onReset 0x0025 PortA.reset PortB.reset = some (.ok (.byte 0x01)) := by decide +kernel

/-- spec/95_test_vectors.md section 4. -/
theorem test_rcon_last : onReset 0x0145 PortA.reset PortB.reset = some (.ok (.byte 0x36)) := by decide +kernel

/-- spec/95_test_vectors.md section 4. -/
theorem test_shift : onReset 0x0006 (idxA 15) PortB.reset = some (.ok (.idx4 11)) := by decide +kernel

/-- spec/95_test_vectors.md section 4. -/
theorem test_ishift : onReset 0x0007 (idxA 1) PortB.reset = some (.ok (.idx4 13)) := by decide +kernel

/-- spec/95_test_vectors.md section 5. -/
theorem test_subb : onReset 0x0008 (blockA 0x00112233445566778899aabbccddeeff) PortB.reset =
    some (.ok (.block (hexBlock 0x638293c31bfc33f5c4eeacea4bc12816))) := by decide +kernel

/-- spec/95_test_vectors.md section 5, the length corner cases. -/
theorem test_subb_wrong_length : onReset 0x0008 (bytesA (List.replicate 15 0)) PortB.reset =
    some (.err .invalidBlockSize) := by decide +kernel

/-- spec/95_test_vectors.md section 5. -/
theorem test_isubb : onReset 0x0009 (blockA 0x00112233445566778899aabbccddeeff) PortB.reset =
    some (.ok (.block (hexBlock 0x52e3946686edd30297f962fe27c9997d))) := by decide +kernel

/-- spec/95_test_vectors.md section 5, the length corner cases. -/
theorem test_isubb_wrong_length : onReset 0x0009 (bytesA (List.replicate 17 0)) PortB.reset =
    some (.err .invalidBlockSize) := by decide +kernel

/-- spec/95_test_vectors.md section 5. -/
theorem test_perm : onReset 0x000A (blockA 0x00112233445566778899aabbccddeeff) PortB.reset =
    some (.ok (.block (hexBlock 0x0055aaff4499ee3388dd2277cc1166bb))) := by decide +kernel

/-- spec/95_test_vectors.md section 5, the length corner cases. -/
theorem test_perm_wrong_length : onReset 0x000A (bytesA (List.replicate 15 0)) PortB.reset =
    some (.err .invalidBlockSize) := by decide +kernel

/-- spec/95_test_vectors.md section 5. -/
theorem test_iperm : onReset 0x000B (blockA 0x00112233445566778899aabbccddeeff) PortB.reset =
    some (.ok (.block (hexBlock 0x00ddaa774411eebb885522ffcc996633))) := by decide +kernel

/-- spec/95_test_vectors.md section 5, the length corner cases. -/
theorem test_iperm_wrong_length : onReset 0x000B (bytesA (List.replicate 17 0)) PortB.reset =
    some (.err .invalidBlockSize) := by decide +kernel

/-- spec/95_test_vectors.md section 6. -/
theorem test_diff : onReset 0x000C (blockA 0xd4bf5d30e0b452aeb84111f11e2798e5) PortB.reset =
    some (.ok (.block (hexBlock 0x046681e5e0cb199a48f8d37a2806264c))) := by decide +kernel

/-- spec/95_test_vectors.md section 5, the length corner cases. -/
theorem test_diff_wrong_length : onReset 0x000C (bytesA (List.replicate 15 0)) PortB.reset =
    some (.err .invalidBlockSize) := by decide +kernel

/-- spec/95_test_vectors.md section 6. -/
theorem test_idiff : onReset 0x000D (blockA 0x00112233445566778899aabbccddeeff) PortB.reset =
    some (.ok (.block (hexBlock 0xaaff88ddeebbcc992277005566334411))) := by decide +kernel

/-- spec/95_test_vectors.md section 5, the length corner cases. -/
theorem test_idiff_wrong_length : onReset 0x000D (bytesA (List.replicate 17 0)) PortB.reset =
    some (.err .invalidBlockSize) := by decide +kernel

/-- spec/95_test_vectors.md section 5. -/
theorem test_mixk : onReset 0x000E (blockA 0x3243f6a8885a308d313198a2e0370734) (blockB 0x2b7e151628aed2a6abf7158809cf4f3c) =
    some (.ok (.block (hexBlock 0x193de3bea0f4e22b9ac68d2ae9f84808))) := by decide +kernel

/-- spec/95_test_vectors.md section 5, the length corner cases. -/
theorem test_mixk_wrong_second_length : onReset 0x000E (blockA 0) (bytesB (List.replicate 17 0)) = some (.err .invalidBlockSize) := by decide +kernel

/-- spec/95_test_vectors.md section 7. -/
theorem test_rotw : onReset 0x000F (wordA 0x00010203) PortB.reset = some (.ok (.word (hexWord 0x01020300))) := by decide +kernel

/-- spec/95_test_vectors.md section 7. -/
theorem test_subw : onReset 0x0010 (wordA 0x00531001) PortB.reset = some (.ok (.word (hexWord 0x63edca7c))) := by decide +kernel

/-- spec/95_test_vectors.md section 7: the first expansion, as one numeral of 176 bytes. -/
def firstExpansion : Nat :=
  0x2b7e151628aed2a6abf7158809cf4f3ca0fafe1788542cb123a339392a6c7605f2c295f27a96b9435935807a7359f67f3d80477d4716fe3e1e237e446d7a883b <<< 896 |||
  0xef44a541a8525b7fb671253bdb0bad00d4d1c6f87c839d87caf2b8bc11f915bc6d88a37a110b3efddbf98641ca0093fd4e54f70e5f5fc9f384a64fb24ea6dc4f <<< 384 |||
  0xead27321b58dbad2312bf5607f8d292fac7766f319fadc2128d12941575c006ed014f9a8c9ee2589e13f0cc8b6630ca6

/-- The 44 Words of a numeral of 176 bytes. -/
def wordsOf (n : Nat) : Words44 := Vector.ofFn fun i => hexWord (n >>> (32 * (43 - i.val)))

/-- The 11 Blocks of a numeral of 176 bytes. -/
def blocksOf (n : Nat) : Sched := Vector.ofFn fun r => hexBlock (n >>> (128 * (10 - r.val)))

/-- spec/95_test_vectors.md section 7, all 44 Words. -/
theorem test_expand : onReset 0x0011 (blockA 0x2b7e151628aed2a6abf7158809cf4f3c) PortB.reset =
    some (.ok (.words44 (wordsOf firstExpansion))) := by decide +kernel

/-- spec/95_test_vectors.md section 7. -/
theorem test_expand_wrong_length : onReset 0x0011 (bytesA (List.replicate 15 0)) PortB.reset = some (.err .invalidBlockSize) := by decide +kernel

/-- spec/95_test_vectors.md section 7: the same 176 bytes, line by line. -/
theorem test_reshape : onReset 0x0012 { PortA.reset with words44 := wordsOf firstExpansion } PortB.reset =
    some (.ok (.sched (blocksOf firstExpansion))) := by decide +kernel

/-- spec/95_test_vectors.md section 7. -/
theorem test_rkey_nine : onReset 0x0133 (schedA keyC1) PortB.reset = some (.ok (.block (hexBlock 0x549932d1f08557681093ed9cbe2c974e))) := by decide +kernel

/-- spec/95_test_vectors.md section 7. -/
theorem test_rkey_eleven : onReset 0x0173 (schedA keyC1) PortB.reset = some (.err .invalidRoundIndex) := by decide +kernel

/-- spec/95_test_vectors.md section 8, KAT B. -/
theorem test_enc : onReset 0x0014 (blockA 0x3243f6a8885a308d313198a2e0370734) (blockB 0x2b7e151628aed2a6abf7158809cf4f3c) =
    some (.ok (.block (hexBlock 0x3925841d02dc09fbdc118597196a0b32))) := by decide +kernel

/-- spec/95_test_vectors.md section 11, program 5 line 3. -/
theorem test_enc_key_of_17_bytes : onReset 0x0014 (blockA 0x00112233445566778899aabbccddeeff) (bytesB (List.replicate 17 0)) =
    some (.err .invalidBlockSize) := by decide +kernel

/-- spec/95_test_vectors.md section 8. -/
theorem test_dec : onReset 0x0015 (blockA 0) (blockB 0) = some (.ok (.block (hexBlock 0x140f0f1011b5223d79587717ffd9ec3a))) := by decide +kernel

/-- spec/95_test_vectors.md section 11, program 2 line 3. -/
theorem test_dec_wrong_key : onReset 0x0015 (blockA 0x3925841d02dc09fbdc118597196a0b32) (blockB 0x2b7e151628aed2a6abf7158809cf4f3d) =
    some (.ok (.block (hexBlock 0x4effe2ab85760e673e6c310c130698c1))) := by decide +kernel

/-- spec/95_test_vectors.md section 9. -/
theorem test_pround_omit_perm : onReset 0x0436 (blockA 0x00102030405060708090a0b0c0d0e0f0) (blockB keyC1) =
    some (.ok (.block (hexBlock 0xe680a42db43a60c0fc773ce84445eab9))) := by decide +kernel

/-- spec/95_test_vectors.md section 9. -/
theorem test_pround_length_before_round : onReset 0x0016 (bytesA (List.replicate 17 0)) (blockB keyC1) = some (.err .invalidBlockSize) := by decide +kernel

/-- The characters of a numeral of 128 binary digits. -/
def bitsOf (n : Nat) : List BitChar := (List.range 128).map fun j => if n.testBit (127 - j) then .one else .zero

/-- spec/95_test_vectors.md section 10, the first string, as a binary numeral. -/
def firstString : Nat :=
  0b0010101101111110000101010001011000101000101011101101001010100110 <<< 64 |||
  0b1010101111110111000101011000100000001001110011110100111100111100

/-- spec/95_test_vectors.md section 10. -/
theorem test_parse : onReset 0x0017 (bitsA (bitsOf firstString)) PortB.reset =
    some (.ok (.block (hexBlock 0x2b7e151628aed2a6abf7158809cf4f3c))) := by decide +kernel

/-- spec/95_test_vectors.md section 10: a space among 128 characters. -/
theorem test_parse_foreign_character : onReset 0x0017 (bitsA (List.replicate 64 .zero ++ [.other 32] ++ List.replicate 63 .one)) PortB.reset =
    some (.err .invalidInputLength) := by decide +kernel

/-- The list of a Bits128 response. -/
def rendered : Option Response → List BitChar
  | some (.ok (.bits128 v)) => v.toList
  | _ => []

/-- spec/95_test_vectors.md section 10. -/
theorem test_render : rendered (onReset 0x0018 (blockA 0x2b7e151628aed2a6abf7158809cf4f3c) PortB.reset) = bitsOf firstString := by decide +kernel

/-- spec/95_test_vectors.md section 10. -/
theorem test_render_wrong_length : onReset 0x0018 (bytesA (List.replicate 15 0)) PortB.reset = some (.err .invalidBlockSize) := by decide +kernel

/-- spec/30_encoding.md R92: SUBB with `ROUND` = 1 (program 5 line 11) is refused and gives no response. -/
theorem test_reserved_word_refused :
    step (loaded 0x0028 PortA.reset PortB.reset) = .refused (.reservedEncoding .roundUnused) := by rfl

/-- A second command is not accepted while one is in flight (R276). -/
theorem test_issue_while_busy : (loaded 0x0001 PortA.reset PortB.reset).issue 0x0002 PortA.reset PortB.reset = none := by
  rfl

/-- The word a table row gives runs as the next command. -/
theorem test_withFetchWord_runs : answer (step (State.reset.withFetchWord 16 0x0145)) = some (.ok (.byte 0x36)) := by
  decide +kernel

/-! ### Programs (spec/95_test_vectors.md section 11) -/

/-- The responses of a program on the engine after reset. -/
def responsesOf (p : Program) : Option (List Response) := (runProgram p State.reset).map fun x => x.2

/-- A line with both operands written in it. -/
def givenLine (cw : CommandWord) (a : PortA) (b : PortB) : ProgramLine := { cw := cw, a := .given a, b := .given b }

/-- Program 3 lines 3 and 4: a round key handed on to port `B`. -/
theorem test_program_result_on_port_B :
    responsesOf [givenLine 0x0013 (schedA keyC1) PortB.reset,
      { cw := 0x000E, a := .given (blockA 0x00112233445566778899aabbccddeeff), b := .result 0 }] =
      some [.ok (.block (hexBlock keyC1)), .ok (.block (hexBlock 0x00102030405060708090a0b0c0d0e0f0))] := by
  decide +kernel

/-- Program 6 lines 4 and 5: a byte handed on to port `A`. -/
theorem test_program_result_on_port_A :
    responsesOf [givenLine 0x0003 (byteA 0x53) PortB.reset, { cw := 0x0004, a := .result 0, b := .given PortB.reset }] =
      some [.ok (.byte 0xED), .ok (.byte 0x53)] := by
  decide +kernel

/-- Program 5: an error is a response and the program goes on (here line 7, then SBOX); a reserved word gives none. -/
theorem test_program_goes_on_after_error :
    responsesOf [givenLine 0x0017 (bitsA []) PortB.reset, givenLine 0x0003 (byteA 0x53) PortB.reset] =
      some [.err .invalidInputLength, .ok (.byte 0xED)] ∧
    responsesOf [givenLine 0x0028 PortA.reset PortB.reset] = none ∧
    responsesOf [givenLine 0x0017 (bitsA []) PortB.reset, { cw := 0x0008, a := .result 0, b := .given PortB.reset }] =
      none := by
  refine ⟨?_, ?_, ?_⟩ <;> decide +kernel

/-- A byte is no operand `A` or `B` of ENC, and a Block none of RESHAPE: such a program does not run (log 32). -/
theorem test_program_result_of_other_shape :
    responsesOf [givenLine 0x0003 (byteA 0x53) PortB.reset,
      { cw := 0x0014, a := .result 0, b := .given (blockB keyC1) }] = none ∧
    responsesOf [givenLine 0x0003 (byteA 0x53) PortB.reset,
      { cw := 0x0014, a := .given (blockA keyC1), b := .result 0 }] = none ∧
    responsesOf [givenLine 0x0008 (blockA keyC1) PortB.reset,
      { cw := 0x0012, a := .result 0, b := .given PortB.reset }] = none := by
  refine ⟨?_, ?_, ?_⟩ <;> decide +kernel

/-! ### Witnesses: every hypothesis of every obligation is met by something

The state `exampleState` has a PROUND in flight with a 16-byte state and key on its ports. -/

/-- A state with 16-byte operands on both ports. -/
def exampleState : State := loaded 0x0036 (blockA 0x00102030405060708090a0b0c0d0e0f0) (blockB keyC1)

/-- The engine idle, showing the response of the RCON on its ports. -/
def exampleIdle : State := (loaded 0x0145 PortA.reset PortB.reset).respondOk (.byte 0x36)

theorem test_witness_DecodeOfEncode :
    (Instr.rcon 1).wellFormed = true ∧ (Instr.rcon 10).wellFormed = true ∧
      (Instr.pround 15 .omitKey).wellFormed = true := by decide

theorem test_witness_EncodeOfDecode : decode 0x0956 = .ok (.pround 10 .omitKey) := by decide

theorem test_witness_ReservedWordsRefused :
    decode 0x0005 = .error .rconIndex ∧ (loaded 0x0005 PortA.reset PortB.reset).inFlight = true ∧
      (loaded 0x0005 PortA.reset PortB.reset).cw = 0x0005 := ⟨by decide, rfl, rfl⟩

theorem test_witness_WorkedEncodings :
    exampleState.a.block = (hexBlock 0x00102030405060708090a0b0c0d0e0f0).toList ∧
      exampleState.b.block = (hexBlock keyC1).toList := ⟨rfl, rfl⟩

theorem test_witness_StepRunsDecodedCommand :
    exampleState.inFlight = true ∧ decode exampleState.cw = .ok (.pround 1 .full) ∧ exampleIdle.inFlight = false :=
  ⟨rfl, by decide, rfl⟩

theorem test_witness_IssueOnlyWhenIdle : exampleState.inFlight = true ∧ State.reset.inFlight = false := ⟨rfl, rfl⟩

theorem test_witness_FirstCommandLikeAnyOther : exampleIdle.inFlight = false ∧ decode 0x0014 = .ok .enc :=
  ⟨rfl, by decide⟩

/-- Two states with the same operands and different working registers. -/
theorem test_witness_ResponseOfCommandAlone :
    let t := exampleState.withWork { Work.reset with rnd := 7, acc := 5 }
    exampleState.a = t.a ∧ exampleState.b = t.b ∧ exampleState.work ≠ t.work := by
  refine ⟨rfl, rfl, ?_⟩
  intro h
  exact absurd (congrArg Work.acc h) (by decide)

theorem test_witness_EveryCommandMeetsContract : (Instr.rkey 11).wellFormed = true := by decide

theorem test_witness_EveryCommandResponds :
    exampleState.inFlight = true ∧ decode exampleState.cw = .ok (.pround 1 .full) := ⟨rfl, by decide⟩

theorem test_witness_CommandFrame : exec .sbox exampleState = .next (exampleState.respondOk (.byte 0x63)) := by rfl

/-- Both kinds of settled state: one with a command in flight, and an idle one whose response is its command's. -/
theorem test_witness_SettledKeptByStep :
    Settled exampleState ∧ Settled exampleIdle ∧ step exampleIdle = .next exampleIdle ∧
      (exampleIdle.response.isSome = true) ∧
      step (loaded 0x0145 PortA.reset PortB.reset) = .next exampleIdle := by
  refine ⟨fun h => ?_, fun _ r hr => ⟨.rcon 10, by decide, ?_⟩, rfl, rfl, rfl⟩
  · cases h
  · rw [← hr]
    rfl

theorem test_witness_SettledKeptByHost :
    Settled exampleIdle ∧ (exampleIdle.issue 0x0014 PortA.reset PortB.reset).isSome = true :=
  ⟨test_witness_SettledKeptByStep.2.1, rfl⟩

/-- One failing command of each kind. -/
theorem test_witness_ErrorLeavesNoTrace :
    exec .subb State.reset = .next (failed State.reset .invalidBlockSize) ∧
      exec .parse State.reset = .next (failed State.reset .invalidInputLength) ∧
      exec (.rkey 11) State.reset = .next (failed State.reset .invalidRoundIndex) := ⟨rfl, rfl, rfl⟩

theorem test_witness_ErrorCodesAndRaisers :
    exec (.pround 0 .omitKey) exampleState = .next (failed exampleState .invalidRoundIndex) ∧
      (failed exampleState .invalidRoundIndex).response = some (.err .invalidRoundIndex) := by
  refine ⟨?_, rfl⟩
  rw [exec, execPround_eq, withBlocksAB_of_blocks (x := hexBlock 0x00102030405060708090a0b0c0d0e0f0)
    (y := hexBlock keyC1) rfl rfl, dif_neg (by decide)]
  rfl

/-- The two clauses of each "exactly": lengths 15, 17 and 16; 127, 129 and 128 characters; rounds 10, 11, 0 and 1. -/
theorem test_witness_InvalidBlockSizeExactly :
    (loaded 0x0008 (bytesA (List.replicate 15 0)) PortB.reset).a.block.length ≠ 16 ∧
      (loaded 0x0008 (bytesA (List.replicate 17 0)) PortB.reset).a.block.length ≠ 16 ∧
      exampleState.a.block.length = 16 ∧ exampleState.b.block.length = 16 := by
  refine ⟨?_, ?_, ?_, ?_⟩ <;> decide

theorem test_witness_InvalidInputLengthExactly :
    (bitsA (List.replicate 127 .zero)).bits.length ≠ 128 ∧ (bitsA (List.replicate 129 .zero)).bits.length ≠ 128 ∧
      (bitsA (List.replicate 127 .zero ++ [.other 50])).bits.length = 128 ∧
      BitChar.other 50 ≠ .zero ∧ BitChar.other 50 ≠ .one := by
  refine ⟨?_, ?_, ?_, ?_, ?_⟩ <;> decide +kernel

theorem test_witness_InvalidRoundIndexExactly :
    10 < (11 : BitVec 4).toNat ∧ ¬ 10 < (10 : BitVec 4).toNat ∧ (0 : BitVec 4).toNat < 1 ∧ ¬ (1 : BitVec 4).toNat < 1 := by
  decide

/-- A first operand of 17 bytes; a second of 15 bytes; two of 16 bytes with round 0 and with round 11. -/
theorem test_witness_ProundCheckOrder :
    (loaded 0x0016 (bytesA (List.replicate 17 0)) (blockB 0)).a.block.length ≠ 16 ∧
      (loaded 0x0016 (blockA 0) (bytesB (List.replicate 15 0))).a.block.length = 16 ∧
      (loaded 0x0016 (blockA 0) (bytesB (List.replicate 15 0))).b.block.length ≠ 16 ∧
      exampleState.a.block.length = 16 ∧ exampleState.b.block.length = 16 ∧
      ¬ (1 ≤ (0 : BitVec 4).toNat ∧ (0 : BitVec 4).toNat ≤ 10) ∧
      ¬ (1 ≤ (11 : BitVec 4).toNat ∧ (11 : BitVec 4).toNat ≤ 10) := by
  refine ⟨?_, ?_, ?_, ?_, ?_, ?_, ?_⟩ <;> decide

theorem test_witness_GmulResult : (List.range 8).reverse.Perm (List.range 8) := by decide

/-- The values where the two clauses of the loop meet, and the largest operands of its bounds. -/
theorem test_witness_GredResult :
    (0xFF : BitVec 16).toNat < 256 ∧ 256 ≤ (0x100 : BitVec 16).toNat ∧ 256 ≤ (0xFFFF : BitVec 16).toNat ∧
      0xFFFF < 2 ^ 16 ∧ 0x7FFF < 2 ^ 15 := by decide

theorem test_witness_MultiplyLaws : (0x57 : Byte) ≠ 0 := by decide

theorem test_witness_SboxIsAffineOfInverse : (0x53 : Byte) ≠ 0 ∧ multiply 0x53 0xCA = 1 := by decide +kernel

theorem test_witness_RoundConstants :
    (1 ≤ (1 : BitVec 4).toNat ∧ (1 : BitVec 4).toNat ≤ 10) ∧ (1 ≤ (10 : BitVec 4).toNat ∧ (10 : BitVec 4).toNat ≤ 10) ∧
      ¬ (1 ≤ (0 : BitVec 4).toNat ∧ (0 : BitVec 4).toNat ≤ 10) ∧
      ¬ (1 ≤ (11 : BitVec 4).toNat ∧ (11 : BitVec 4).toNat ≤ 10) := by decide

theorem test_witness_ShiftLookups : (12 : BitVec 4).toNat % 4 = 0 ∧ (14 : BitVec 4).toNat % 4 = 2 := by decide

/-- For SubstituteCommands, PermuteCommands, DiffuseCommands, ExpandResult, RenderResult: an operand of 16 bytes, and one
of 15 and of 17 bytes. -/
theorem test_witness_one_block_operand :
    (loaded 0x0008 (blockA keyC1) PortB.reset).a.block = (hexBlock keyC1).toList ∧
      (loaded 0x0008 (bytesA (List.replicate 15 0)) PortB.reset).a.block.length ≠ 16 ∧
      (loaded 0x0008 (bytesA (List.replicate 17 0)) PortB.reset).a.block.length ≠ 16 := by
  refine ⟨rfl, ?_, ?_⟩ <;> decide

/-- For MixkResult, EncResult, DecResult, ProundResult: two operands of 16 bytes, a wrong first, a wrong second. -/
theorem test_witness_two_block_operands :
    (exampleState.a.block = (hexBlock 0x00102030405060708090a0b0c0d0e0f0).toList ∧
      exampleState.b.block = (hexBlock keyC1).toList) ∧
      (loaded 0x000E (bytesA (List.replicate 15 0)) (blockB 0)).a.block.length ≠ 16 ∧
      (loaded 0x000E (blockA 0) (bytesB (List.replicate 17 0))).b.block.length ≠ 16 := by
  refine ⟨⟨rfl, rfl⟩, ?_, ?_⟩ <;> decide

/-- A Block whose four columns are equal, and a column of four equal bytes that are not zero. -/
theorem test_witness_PermuteCommands_DiffuseCommands :
    (∀ c : Fin 4, column (hexBlock 0x01020304010203040102030401020304) c =
      column (hexBlock 0x01020304010203040102030401020304) 0) ∧
      (∀ r : Fin 4, entry (hexBlock 0x00000000c6c6c6c60000000000000000) r 1 =
        entry (hexBlock 0x00000000c6c6c6c60000000000000000) 0 1) := by decide

/-- Two Blocks that agree in one byte and in one column and differ elsewhere. -/
theorem test_witness_LaneStructure :
    (hexBlock 1)[(2 : Fin 16)] = (hexBlock 2)[(2 : Fin 16)] ∧ column (hexBlock 1) 1 = column (hexBlock 2) 1 ∧
      hexBlock 1 ≠ hexBlock 2 := by decide

theorem test_witness_ExpandResult : 4 ≤ 4 ∧ 43 < 44 ∧ 40 % 4 = 0 ∧ 43 % 4 ≠ 0 := by decide

theorem test_witness_RkeyResult :
    (10 : BitVec 4).toNat ≤ 10 ∧ 10 < (11 : BitVec 4).toNat ∧
      (loaded 0x0153 (schedA keyC1) PortB.reset).a.sched = schedule (hexBlock 0x000102030405060708090a0b0c0d0e0f) :=
  ⟨by decide, by decide, rfl⟩

/-- Rounds 1 and 10, the ends of the range of the round statements (BlockRecurrence, DecryptWalksBack, ProundResult,
TenFullRoundsEncrypt); rounds 1 and 9, those of the middle rounds (EncResult, DecResult). -/
theorem test_witness_round_ranges : (1 ≤ 1 ∧ 1 ≤ 10) ∧ (1 ≤ 10 ∧ 10 ≤ 10) ∧ (1 ≤ 1 ∧ 1 ≤ 9) ∧ (1 ≤ 9 ∧ 9 ≤ 9) := by
  decide

theorem test_witness_ProundResult :
    (1 ≤ (1 : BitVec 4).toNat ∧ (1 : BitVec 4).toNat ≤ 10) ∧ (1 ≤ (10 : BitVec 4).toNat ∧ (10 : BitVec 4).toNat ≤ 10) ∧
      ¬ (1 ≤ (0 : BitVec 4).toNat ∧ (0 : BitVec 4).toNat ≤ 10) ∧
      ¬ (1 ≤ (15 : BitVec 4).toNat ∧ (15 : BitVec 4).toNat ≤ 10) := by decide

theorem test_witness_PseudoCommands_EncThenDecOnThePorts :
    exampleIdle.inFlight = false ∧ (blockA 0x00112233445566778899aabbccddeeff).block =
      (hexBlock 0x00112233445566778899aabbccddeeff).toList ∧ (blockB keyC1).block = (hexBlock keyC1).toList :=
  ⟨rfl, rfl, rfl⟩

/-- 128 digits of both kinds; 127 characters; 128 characters with a foreign one. -/
theorem test_witness_ParseResult :
    (loaded 0x0017 (bitsA (renderBits (hexBlock keyC1)).toList) PortB.reset).a.bits =
        (renderBits (hexBlock keyC1)).toList ∧
      (∀ j : Fin 128, (renderBits (hexBlock keyC1))[j] = .zero ∨ (renderBits (hexBlock keyC1))[j] = .one) ∧
      (bitsA (List.replicate 127 .zero)).bits.length ≠ 128 ∧
      (∃ c ∈ (bitsA (List.replicate 127 .zero ++ [.other 50])).bits, c ≠ .zero ∧ c ≠ .one) := by
  refine ⟨rfl, ?_, ?_, ⟨.other 50, ?_, ?_, ?_⟩⟩ <;> decide +kernel

theorem test_witness_CodecRoundTrip :
    parseBits (renderBits (hexBlock keyC1)).toList = some (hexBlock keyC1) := by decide +kernel

end Sys2Proof.Tests
end

section
/-! What running a command comes to, once for all 24 commands, and the statements about the engine's state that follow. -/

namespace Sys2Proof.Machine

open Sys2Proof

/-! ### A command runs to its contract's response -/

/-- `s` when its command has responded `r`: `Ok` drops the working registers, `Err` changes nothing else (R21, R273). -/
def State.respond (s : State) : Response → State
  | .ok res => s.respondOk res
  | .err kind => s.raise kind

/-- The step of a command whose contract gives this response; without one the command is refused (R137, log 13). -/
def State.conclude (s : State) : Option Response → Outcome
  | some r => .next (s.respond r)
  | none => .refused (.reservedEncoding .rconIndex)

@[simp] theorem State.respond_ok (s : State) (res : Result) : s.respond (.ok res) = s.respondOk res := rfl

@[simp] theorem State.respond_err (s : State) (kind : ErrorKind) : s.respond (.err kind) = s.raise kind := rfl

@[simp] theorem State.conclude_some (s : State) (r : Response) : s.conclude (some r) = .next (s.respond r) := rfl

@[simp] theorem State.conclude_none (s : State) : s.conclude none = .refused (.reservedEncoding .rconIndex) := rfl

/-- The state after a response is what the contract's `Responded` asks of it. -/
theorem responded_respond (s : State) (r : Response) : Responded s (s.respond r) r := by
  cases r with
  | ok res => exact responded_respondOk s res
  | err kind => exact responded_raise s kind

/-- What a concluded command answers is the response it was concluded with. -/
@[simp] theorem answer_conclude (s : State) (r : Option Response) : answer (s.conclude r) = r := by
  cases r with
  | none => rfl
  | some r =>
    obtain ⟨hresponse, -⟩ := responded_respond s r
    exact hresponse

/-- The one-operand form is the contract's: `f` of a 16-byte operand, else `InvalidBlockSize` (R272). -/
theorem withBlockA_eq_conclude (s : State) (f : Block → Result) :
    withBlockA s (fun x => .next (s.respondOk (f x))) = s.conclude (some (blockResponse s.a.block f)) := by
  cases hx : formBlock s.a.block <;> simp [withBlockA, blockResponse, hx]

/-- The two-operand form is the contract's: the order of the two length tests does not show (R274). -/
theorem withBlocksAB_eq_conclude (s : State) (f : Block → Block → Response) :
    withBlocksAB s (fun x y => .next (s.respond (f x y))) =
      s.conclude (some (blocksResponse s.a.block s.b.block f)) := by
  cases hx : formBlock s.a.block <;> cases hy : formBlock s.b.block <;>
    simp [withBlocksAB, blocksResponse, hx, hy]

theorem execRcon_eq_conclude (j : BitVec 4) (s : State) :
    execRcon j s = s.conclude (responseOf (.rcon j) s.a s.b) := by
  by_cases h : 1 ≤ j.toNat ∧ j.toNat ≤ 10 <;> simp [execRcon, responseOf, h]

theorem execRkey_eq_conclude (r : BitVec 4) (s : State) :
    execRkey r s = s.conclude (responseOf (.rkey r) s.a s.b) := by
  cases h : lookupRoundKey s.a.sched r <;> simp [execRkey, responseOf, h]

theorem execParse_eq_conclude (s : State) : execParse s = s.conclude (responseOf .parse s.a s.b) := by
  cases h : parseBits s.a.bits <;> simp [execParse, responseOf, h]

/-- PROUND's round test, after the two length tests, decides only which response is given (R274). -/
theorem execPround_eq_conclude (round : BitVec 4) (sel : RoundSelector) (s : State) :
    execPround round sel s = s.conclude (responseOf (.pround round sel) s.a s.b) := by
  rw [execPround_eq, responseOf, ← withBlocksAB_eq_conclude]
  by_cases h : 1 ≤ round.toNat ∧ round.toNat ≤ 10 <;> simp [h]

/-- Running a command on the state is concluding it with the response its contract gives for the ports (R21, R312). -/
theorem exec_eq_conclude (i : Instr) (s : State) : exec i s = s.conclude (responseOf i s.a s.b) := by
  cases i with
  | gmul => exact execGmul_eq s
  | gred | sbox | isbox | shift | ishift | rotw | subw | reshape => rfl
  | rcon j => exact execRcon_eq_conclude j s
  | subb | isubb | perm | iperm | render => exact withBlockA_eq_conclude s _
  | diff => exact (execDiff_eq s).trans (withBlockA_eq_conclude s _)
  | idiff => exact (execIdiff_eq s).trans (withBlockA_eq_conclude s _)
  | expand => exact (execExpand_eq s).trans (withBlockA_eq_conclude s _)
  | mixk => exact withBlocksAB_eq_conclude s fun x k => .ok (.block (mixRoundKey x k))
  | enc =>
    exact (execEnc_eq s).trans (withBlocksAB_eq_conclude s fun x k => .ok (.block (encrypt x k)))
  | dec =>
    exact (execDec_eq s).trans (withBlocksAB_eq_conclude s fun x k => .ok (.block (decrypt x k)))
  | rkey r => exact execRkey_eq_conclude r s
  | pround round sel => exact execPround_eq_conclude round sel s
  | parse => exact execParse_eq_conclude s

/-- A command answers its contract's response for the operands on the ports, whatever else the state holds. -/
theorem answer_exec (i : Instr) (s : State) : answer (exec i s) = responseOf i s.a s.b := by
  rw [exec_eq_conclude, answer_conclude]

/-! ### The statements -/

/-- Settles O12: both answers are the contract's response, which reads the two ports only. -/
theorem responseOfCommandAlone : Obligations.ResponseOfCommandAlone := by
  intro i s t ha hb
  calc answer (exec i s) = responseOf i s.a s.b := answer_exec i s
    _ = responseOf i t.a t.b := by rw [ha, hb]
    _ = answer (exec i t) := (answer_exec i t).symm

end Sys2Proof.Machine
end

section
/-! The decoder by opcode row, the words it accepts and the words it refuses (spec/30_encoding.md R81, R83, R92). -/

namespace Sys2Proof

/-! ### A command word by its fields (R81) -/

/-- Two command words are equal when their four fields are. -/
theorem commandWord_ext_iff {w v : CommandWord} :
    w = v ↔ fieldZero w = fieldZero v ∧ fieldOp w = fieldOp v ∧ fieldSel w = fieldSel v ∧ fieldRound w = fieldRound v := by
  constructor
  · rintro rfl
    exact ⟨rfl, rfl, rfl, rfl⟩
  · rintro ⟨hzero, hop, hsel, hround⟩
    rw [commandWord_fields w, commandWord_fields v, hzero, hop, hsel, hround]

@[simp] theorem fieldOp_and (w m : CommandWord) : fieldOp (w &&& m) = fieldOp w &&& fieldOp m :=
  BitVec.extractLsb'_and

@[simp] theorem fieldRound_and (w m : CommandWord) : fieldRound (w &&& m) = fieldRound w &&& fieldRound m :=
  BitVec.extractLsb'_and

@[simp] theorem fieldSel_and (w m : CommandWord) : fieldSel (w &&& m) = fieldSel w &&& fieldSel m :=
  BitVec.extractLsb'_and

@[simp] theorem fieldZero_and (w m : CommandWord) : fieldZero (w &&& m) = fieldZero w &&& fieldZero m :=
  BitVec.extractLsb'_and

/-- The three shifted fields do not overlap: their union is their sum. -/
theorem commandWord_toNat (op : BitVec 5) (round : BitVec 4) (sel : BitVec 3) :
    (commandWord op round sel).toNat = 512 * sel.toNat + (32 * round.toNat + op.toNat) := by
  have hlow := Nat.two_pow_add_eq_or_of_lt (i := 5) op.isLt round.toNat
  have hhigh := Nat.two_pow_add_eq_or_of_lt (i := 9) (b := 32 * round.toNat + op.toNat) (by omega) sel.toNat
  simp (disch := omega) only [commandWord, BitVec.toNat_or, BitVec.toNat_shiftLeft, BitVec.toNat_setWidth,
    Nat.shiftLeft_eq, Nat.mod_eq_of_lt]
  rw [Nat.or_comm, Nat.or_comm op.toNat, Nat.mul_comm, Nat.mul_comm round.toNat, ← hlow, hhigh]

@[simp] theorem fieldOp_commandWord (op : BitVec 5) (round : BitVec 4) (sel : BitVec 3) :
    fieldOp (commandWord op round sel) = op :=
  BitVec.eq_of_toNat_eq (by rw [fieldOp_toNat, commandWord_toNat]; omega)

@[simp] theorem fieldRound_commandWord (op : BitVec 5) (round : BitVec 4) (sel : BitVec 3) :
    fieldRound (commandWord op round sel) = round :=
  BitVec.eq_of_toNat_eq (by rw [fieldRound_toNat, commandWord_toNat]; omega)

@[simp] theorem fieldSel_commandWord (op : BitVec 5) (round : BitVec 4) (sel : BitVec 3) :
    fieldSel (commandWord op round sel) = sel :=
  BitVec.eq_of_toNat_eq (by rw [fieldSel_toNat, commandWord_toNat]; omega)

@[simp] theorem fieldZero_commandWord (op : BitVec 5) (round : BitVec 4) (sel : BitVec 3) :
    fieldZero (commandWord op round sel) = 0 :=
  BitVec.eq_of_toNat_eq (by rw [fieldZero_toNat, commandWord_toNat]; simp; omega)

/-- A word is the word of three fields when it has those fields and `ZERO` is zero. -/
theorem commandWord_eq_iff {op : BitVec 5} {round : BitVec 4} {sel : BitVec 3} {w : CommandWord} :
    commandWord op round sel = w ↔ fieldZero w = 0 ∧ fieldOp w = op ∧ fieldSel w = sel ∧ fieldRound w = round := by
  rw [eq_comm, commandWord_ext_iff]
  simp

/-! ### Every outcome of the decoder (R83, R92) -/

theorem selectorOfCode_eq_some_iff {c : BitVec 3} {sel : RoundSelector} :
    selectorOfCode c = some sel ↔ c = selectorCode sel := by
  revert c
  cases sel <;> decide

theorem selectorOfCode_eq_none_iff {c : BitVec 3} : selectorOfCode c = none ↔ 5 ≤ c.toNat := by
  revert c
  decide

/-- What the decoder can answer for `w`, each refusal with the condition of R92 it names. -/
inductive DecodeOutcome (w : CommandWord) : Except Reserved Instr → Prop
  | zeroField (hzero : fieldZero w ≠ 0) : DecodeOutcome w (.error .zeroField)
  | opcode (hop : (fieldOp w).toNat = 0 ∨ 0x19 ≤ (fieldOp w).toNat) : DecodeOutcome w (.error .opcode)
  | selUnused (hop : fieldOp w ≠ 0x16) (hsel : fieldSel w ≠ 0) : DecodeOutcome w (.error .selUnused)
  | selCode (hzero : fieldZero w = 0) (hop : fieldOp w = 0x16) (hsel : 5 ≤ (fieldSel w).toNat) :
      DecodeOutcome w (.error .selCode)
  | roundUnused (hop : fieldOp w ≠ 0x05 ∧ fieldOp w ≠ 0x13 ∧ fieldOp w ≠ 0x16) (hround : fieldRound w ≠ 0) :
      DecodeOutcome w (.error .roundUnused)
  | rconIndex (hzero : fieldZero w = 0) (hop : fieldOp w = 0x05) (hsel : fieldSel w = 0)
      (hround : ¬ rconIndexLegal (fieldRound w) = true) : DecodeOutcome w (.error .rconIndex)
  | command (i : Instr) (hlegal : i.wellFormed = true) (hword : encode i = w) : DecodeOutcome w (.ok i)

/-- A command without a field in its word: `SEL` is looked at before `ROUND`. -/
theorem decodeOutcome_plainCommand {i : Instr} {op : BitVec 5} {w : CommandWord} (hword : encode i = commandWord op 0 0)
    (hlegal : i.wellFormed = true) (hzero : fieldZero w = 0) (hop : fieldOp w = op)
    (hother : op ≠ 0x05 ∧ op ≠ 0x13 ∧ op ≠ 0x16) : DecodeOutcome w (plainCommand i w) := by
  subst op
  unfold plainCommand
  split_ifs with hsel hround
  · exact .selUnused hother.2.2 hsel
  · exact .roundUnused hother hround
  · exact .command i hlegal (hword.trans (commandWord_eq_iff.mpr ⟨hzero, rfl, not_not.mp hsel, not_not.mp hround⟩))

theorem decodeOutcome_rconCommand {w : CommandWord} (hzero : fieldZero w = 0) (hop : fieldOp w = 0x05) :
    DecodeOutcome w (rconCommand w) := by
  unfold rconCommand
  split_ifs with hsel hround
  · exact .selUnused (by rw [hop]; decide) hsel
  · exact .command _ hround (commandWord_eq_iff.mpr ⟨hzero, hop, not_not.mp hsel, rfl⟩)
  · exact .rconIndex hzero hop (not_not.mp hsel) hround

theorem decodeOutcome_rkeyCommand {w : CommandWord} (hzero : fieldZero w = 0) (hop : fieldOp w = 0x13) :
    DecodeOutcome w (rkeyCommand w) := by
  unfold rkeyCommand
  split_ifs with hsel
  · exact .selUnused (by rw [hop]; decide) hsel
  · exact .command _ rfl (commandWord_eq_iff.mpr ⟨hzero, hop, not_not.mp hsel, rfl⟩)

theorem decodeOutcome_proundCommand {w : CommandWord} (hzero : fieldZero w = 0) (hop : fieldOp w = 0x16) :
    DecodeOutcome w (proundCommand w) := by
  unfold proundCommand
  split
  next sel hsel =>
    exact .command _ rfl (commandWord_eq_iff.mpr ⟨hzero, hop, selectorOfCode_eq_some_iff.mp hsel, rfl⟩)
  next hsel => exact .selCode hzero hop (selectorOfCode_eq_none_iff.mp hsel)

/-- The decoder's answer is one of the outcomes, under that outcome's condition. -/
theorem decodeOutcome_of_decode_eq {w : CommandWord} {answer : Except Reserved Instr} (hdecode : decode w = answer) :
    DecodeOutcome w answer := by
  subst answer
  unfold decode
  split_ifs with hzero
  · exact .zeroField hzero
  · have hzero := not_not.mp hzero
    split
    -- RCON, RKEY and PROUND read `ROUND` or `SEL`
    case h_5 hop => exact decodeOutcome_rconCommand hzero (BitVec.eq_of_toNat_eq hop)
    case h_19 hop => exact decodeOutcome_rkeyCommand hzero (BitVec.eq_of_toNat_eq hop)
    case h_22 hop => exact decodeOutcome_proundCommand hzero (BitVec.eq_of_toNat_eq hop)
    -- the opcodes outside the map: none of the 24 rows matched
    case h_25 =>
      simp only [imp_false] at *
      exact .opcode (by omega)
    -- the 21 commands without a field in the word
    all_goals
      rename_i hop
      exact decodeOutcome_plainCommand rfl rfl hzero (BitVec.eq_of_toNat_eq hop) (by decide)

/-! ### The accepted words -/

/-- The decoder reads back every well-formed command from its word. -/
theorem decode_encode {i : Instr} (hlegal : i.wellFormed = true) : decode (encode i) = .ok i := by
  cases i with
  | rcon j => revert j; decide
  | rkey r => revert r; decide
  | pround round sel => revert round; cases sel <;> decide
  | _ => decide

/-- A word decodes to a command exactly when the command is well formed and the word is its encoding. -/
theorem decode_eq_ok_iff {w : CommandWord} {i : Instr} : decode w = .ok i ↔ i.wellFormed = true ∧ encode i = w := by
  constructor
  · intro hdecode
    cases decodeOutcome_of_decode_eq hdecode with
    | command i hlegal hword => exact ⟨hlegal, hword⟩
  · rintro ⟨hlegal, rfl⟩
    exact decode_encode hlegal

/-! ### The reserved words (R92) -/

theorem decode_eq_rconIndex_iff {w : CommandWord} :
    decode w = .error .rconIndex ↔
      fieldZero w = 0 ∧ fieldOp w = 0x05 ∧ fieldSel w = 0 ∧ ¬ rconIndexLegal (fieldRound w) = true := by
  constructor
  · intro hdecode
    cases decodeOutcome_of_decode_eq hdecode with
    | rconIndex hzero hop hsel hround => exact ⟨hzero, hop, hsel, hround⟩
  · rintro ⟨hzero, hop, hsel, hround⟩
    simp [decode, hzero, hop, rconCommand, hsel, hround]

theorem decode_eq_selCode_iff {w : CommandWord} :
    decode w = .error .selCode ↔ fieldZero w = 0 ∧ fieldOp w = 0x16 ∧ 5 ≤ (fieldSel w).toNat := by
  constructor
  · intro hdecode
    cases decodeOutcome_of_decode_eq hdecode with
    | selCode hzero hop hsel => exact ⟨hzero, hop, hsel⟩
  · rintro ⟨hzero, hop, hsel⟩
    simp [decode, hzero, hop, proundCommand, selectorOfCode_eq_none_iff.mpr hsel]

/-- R92's six conditions, on the fields of the word. -/
def ReservedFields (w : CommandWord) : Prop :=
  fieldZero w ≠ 0 ∨ ((fieldOp w).toNat = 0 ∨ 0x19 ≤ (fieldOp w).toNat) ∨ (fieldSel w ≠ 0 ∧ fieldOp w ≠ 0x16) ∨
    (5 ≤ (fieldSel w).toNat ∧ fieldOp w = 0x16) ∨
    (fieldRound w ≠ 0 ∧ fieldOp w ≠ 0x05 ∧ fieldOp w ≠ 0x13 ∧ fieldOp w ≠ 0x16) ∨
    (fieldOp w = 0x05 ∧ ¬ rconIndexLegal (fieldRound w) = true)

/-- No well-formed command is encoded in a reserved word. -/
theorem not_reservedFields_encode {i : Instr} (hlegal : i.wellFormed = true) : ¬ ReservedFields (encode i) := by
  cases i with
  | rcon j =>
    have hindex : rconIndexLegal j = true := hlegal
    simp [ReservedFields, encode, hindex]
  | rkey r => simp [ReservedFields, encode]
  | pround round sel => cases sel <;> simp [ReservedFields, encode, selectorCode]
  | _ => unfold ReservedFields; decide

theorem reservedFields_of_decode_eq_error {w : CommandWord} {why : Reserved} (hdecode : decode w = .error why) :
    ReservedFields w := by
  cases decodeOutcome_of_decode_eq hdecode with
  | zeroField hzero => exact .inl hzero
  | opcode hop => exact .inr (.inl hop)
  | selUnused hop hsel => exact .inr (.inr (.inl ⟨hsel, hop⟩))
  | selCode _ hop hsel => exact .inr (.inr (.inr (.inl ⟨hsel, hop⟩)))
  | roundUnused hop hround => exact .inr (.inr (.inr (.inr (.inl ⟨hround, hop⟩))))
  | rconIndex _ hop _ hround => exact .inr (.inr (.inr (.inr (.inr ⟨hop, hround⟩))))

theorem reservedFields_iff_decode_error {w : CommandWord} : ReservedFields w ↔ ∃ why, decode w = .error why := by
  constructor
  · intro hreserved
    cases hdecode : decode w with
    | error why => exact ⟨why, rfl⟩
    | ok i =>
      obtain ⟨hlegal, rfl⟩ := decode_eq_ok_iff.mp hdecode
      exact absurd hreserved (not_reservedFields_encode hlegal)
  · rintro ⟨why, hdecode⟩
    exact reservedFields_of_decode_eq_error hdecode

/-- The same six conditions in the arithmetic of the word. -/
theorem reservedFields_iff_toNat {w : CommandWord} :
    ReservedFields w ↔
      w.toNat / 4096 ≠ 0 ∨ (w.toNat % 32 = 0x00 ∨ 0x19 ≤ w.toNat % 32) ∨
        (w.toNat / 512 % 8 ≠ 0 ∧ w.toNat % 32 ≠ 0x16) ∨ (5 ≤ w.toNat / 512 % 8 ∧ w.toNat % 32 = 0x16) ∨
        (w.toNat / 32 % 16 ≠ 0 ∧ w.toNat % 32 ≠ 0x05 ∧ w.toNat % 32 ≠ 0x13 ∧ w.toNat % 32 ≠ 0x16) ∨
        (w.toNat % 32 = 0x05 ∧ ¬ (1 ≤ w.toNat / 32 % 16 ∧ w.toNat / 32 % 16 ≤ 10)) := by
  simp [ReservedFields, BitVec.toNat_eq, fieldZero_toNat, fieldOp_toNat, fieldSel_toNat, fieldRound_toNat,
    rconIndexLegal]

/-! ### The masks of the opcode map (R83) -/

/-- A row without a free field: its mask takes the whole word. -/
theorem decode_eq_ok_iff_and {w v : CommandWord} {i : Instr} (hlegal : i.wellFormed = true) (hword : encode i = v) :
    decode w = .ok i ↔ w &&& 0xFFFF = v := by
  have hmask : w &&& 0xFFFF = w := BitVec.and_allOnes
  rw [decode_eq_ok_iff, hword, hmask, eq_comm (a := v)]
  exact and_iff_right hlegal

/-- A mask that takes all of `ZERO` and `OP` compares the rest of the word where it has bits. -/
theorem and_eq_commandWord_iff {w mask : CommandWord} {op : BitVec 5} (hzero : fieldZero mask = .allOnes 4)
    (hop : fieldOp mask = .allOnes 5) :
    w &&& mask = commandWord op 0 0 ↔
      fieldZero w = 0 ∧ fieldOp w = op ∧ fieldSel w &&& fieldSel mask = 0 ∧ fieldRound w &&& fieldRound mask = 0 := by
  simp only [commandWord_ext_iff, fieldZero_and, fieldOp_and, fieldSel_and, fieldRound_and, hzero, hop,
    BitVec.and_allOnes, fieldZero_commandWord, fieldOp_commandWord, fieldSel_commandWord, fieldRound_commandWord]

/-- The mask 0xFE1F leaves `ROUND` free. -/
theorem and_roundFree_eq_iff {w : CommandWord} {op : BitVec 5} :
    w &&& 0xFE1F = commandWord op 0 0 ↔ fieldZero w = 0 ∧ fieldOp w = op ∧ fieldSel w = 0 := by
  have hsel : fieldSel 0xFE1F = .allOnes 3 := by decide
  have hround : fieldRound 0xFE1F = 0 := by decide
  rw [and_eq_commandWord_iff (by decide) (by decide), hsel, hround, BitVec.and_allOnes]
  simp

/-- The mask 0xF01F leaves `ROUND` and `SEL` free. -/
theorem and_roundSelFree_eq_iff {w : CommandWord} {op : BitVec 5} :
    w &&& 0xF01F = commandWord op 0 0 ↔ fieldZero w = 0 ∧ fieldOp w = op := by
  have hsel : fieldSel 0xF01F = 0 := by decide
  have hround : fieldRound 0xF01F = 0 := by decide
  rw [and_eq_commandWord_iff (by decide) (by decide), hsel, hround]
  simp

theorem and_eq_rcon_iff {w : CommandWord} :
    w &&& 0xFE1F = 0x0005 ↔ (∃ j, decode w = .ok (.rcon j)) ∨ decode w = .error .rconIndex := by
  refine (and_roundFree_eq_iff (op := 0x05)).trans ⟨?_, ?_⟩
  · rintro ⟨hzero, hop, hsel⟩
    by_cases hround : rconIndexLegal (fieldRound w) = true
    · exact .inl ⟨_, decode_eq_ok_iff.mpr ⟨hround, commandWord_eq_iff.mpr ⟨hzero, hop, hsel, rfl⟩⟩⟩
    · exact .inr (decode_eq_rconIndex_iff.mpr ⟨hzero, hop, hsel, hround⟩)
  · rintro (⟨j, hdecode⟩ | hdecode)
    · obtain ⟨-, hword⟩ := decode_eq_ok_iff.mp hdecode
      obtain ⟨hzero, hop, hsel, -⟩ := commandWord_eq_iff.mp hword
      exact ⟨hzero, hop, hsel⟩
    · obtain ⟨hzero, hop, hsel, -⟩ := decode_eq_rconIndex_iff.mp hdecode
      exact ⟨hzero, hop, hsel⟩

theorem and_eq_rkey_iff {w : CommandWord} : w &&& 0xFE1F = 0x0013 ↔ ∃ r, decode w = .ok (.rkey r) := by
  refine (and_roundFree_eq_iff (op := 0x13)).trans ⟨?_, ?_⟩
  · rintro ⟨hzero, hop, hsel⟩
    exact ⟨_, decode_eq_ok_iff.mpr ⟨rfl, commandWord_eq_iff.mpr ⟨hzero, hop, hsel, rfl⟩⟩⟩
  · rintro ⟨r, hdecode⟩
    obtain ⟨-, hword⟩ := decode_eq_ok_iff.mp hdecode
    obtain ⟨hzero, hop, hsel, -⟩ := commandWord_eq_iff.mp hword
    exact ⟨hzero, hop, hsel⟩

theorem and_eq_pround_iff {w : CommandWord} :
    w &&& 0xF01F = 0x0016 ↔ (∃ r sel, decode w = .ok (.pround r sel)) ∨ decode w = .error .selCode := by
  refine (and_roundSelFree_eq_iff (op := 0x16)).trans ⟨?_, ?_⟩
  · rintro ⟨hzero, hop⟩
    cases hsel : selectorOfCode (fieldSel w) with
    | some sel =>
      have hcode := selectorOfCode_eq_some_iff.mp hsel
      exact .inl ⟨_, sel, decode_eq_ok_iff.mpr ⟨rfl, commandWord_eq_iff.mpr ⟨hzero, hop, hcode, rfl⟩⟩⟩
    | none => exact .inr (decode_eq_selCode_iff.mpr ⟨hzero, hop, selectorOfCode_eq_none_iff.mp hsel⟩)
  · rintro (⟨r, sel, hdecode⟩ | hdecode)
    · obtain ⟨-, hword⟩ := decode_eq_ok_iff.mp hdecode
      obtain ⟨hzero, hop, -⟩ := commandWord_eq_iff.mp hword
      exact ⟨hzero, hop⟩
    · obtain ⟨hzero, hop, -⟩ := decode_eq_selCode_iff.mp hdecode
      exact ⟨hzero, hop⟩

end Sys2Proof

namespace Sys2Proof.Machine

open Sys2Proof

/-! ### The statements -/

/-- Settles O4: 21 rows fix the whole word, the rows of RCON, RKEY and PROUND leave fields free. -/
theorem opcodeMapRows : Obligations.OpcodeMapRows := by
  intro w
  exact ⟨decode_eq_ok_iff_and rfl rfl, decode_eq_ok_iff_and rfl rfl, decode_eq_ok_iff_and rfl rfl,
    decode_eq_ok_iff_and rfl rfl, and_eq_rcon_iff, decode_eq_ok_iff_and rfl rfl, decode_eq_ok_iff_and rfl rfl,
    decode_eq_ok_iff_and rfl rfl, decode_eq_ok_iff_and rfl rfl, decode_eq_ok_iff_and rfl rfl,
    decode_eq_ok_iff_and rfl rfl, decode_eq_ok_iff_and rfl rfl, decode_eq_ok_iff_and rfl rfl,
    decode_eq_ok_iff_and rfl rfl, decode_eq_ok_iff_and rfl rfl, decode_eq_ok_iff_and rfl rfl,
    decode_eq_ok_iff_and rfl rfl, decode_eq_ok_iff_and rfl rfl, and_eq_rkey_iff,
    decode_eq_ok_iff_and rfl rfl, decode_eq_ok_iff_and rfl rfl, and_eq_pround_iff,
    decode_eq_ok_iff_and rfl rfl, decode_eq_ok_iff_and rfl rfl⟩

/-- A step on a word the decoder refuses is refused with the decoder's reason (R92). -/
theorem step_of_decode_eq_error {s : State} {why : Reserved} (hbusy : s.inFlight = true)
    (hdecode : decode s.cw = .error why) : step s = .refused (.reservedEncoding why) := by
  simp [step, hbusy, hdecode]

/-- Settles O5: every refusal of the decoder carries one of R92's conditions, and no command's word meets any. -/
theorem reservedWordsRefused : Obligations.ReservedWordsRefused := by
  intro w
  constructor
  · rw [← reservedFields_iff_decode_error, reservedFields_iff_toNat, or_assoc]
  · rintro why s hdecode hbusy rfl
    exact step_of_decode_eq_error hbusy hdecode

end Sys2Proof.Machine
end

section
/-! The laws of `multiply`: it is bilinear over XOR, so an equation linear in each operand holds of all bytes when it holds
of the eight one-bit bytes (spec/40_field_arithmetic.md R111, R113). -/

namespace Sys2Proof.Machine

open Sys2Proof

/-! ### Bytes as sums of one-bit bytes -/

/-- The low `n + 1` bits of a byte are its low `n` bits, with bit `n` added where it is set. -/
theorem setWidth_setWidth_succ_eq_xor (x : Byte) (n : Nat) :
    (x.setWidth (n + 1)).setWidth 8 = (x.setWidth n).setWidth 8 ^^^ if x.getLsbD n then BitVec.twoPow 8 n else 0 := by
  ext i hi
  by_cases hin : i = n
  · subst hin
    cases hx : x[i] <;> simp [hx, BitVec.getLsbD_eq_getElem hi]
  · have hlt : i < n + 1 ↔ i < n := by omega
    cases hx : x.getLsbD n <;> simp [hlt, hin]

/-- What holds of the one-bit bytes and is kept by XOR holds of every byte. -/
theorem byte_xor_induction {P : Byte → Prop} (oneBit : ∀ k : Fin 8, P (BitVec.twoPow 8 k))
    (xor : ∀ x y, P x → P y → P (x ^^^ y)) (x : Byte) : P x := by
  have zero : P 0 := by simpa using xor _ _ (oneBit 0) (oneBit 0)
  have low : ∀ n ≤ 8, P ((x.setWidth n).setWidth 8) := by
    intro n hn
    induction n with
    | zero => simpa [BitVec.of_length_zero] using zero
    | succ n ih =>
      rw [setWidth_setWidth_succ_eq_xor]
      refine xor _ _ (ih (by omega)) ?_
      split
      · exact oneBit ⟨n, hn⟩
      · exact zero
  simpa using low 8 le_rfl

/-! ### `multiply` is bilinear -/

theorem accumulateBit_xor_left (a a' b : Byte) (acc acc' : BitVec 15) (k : Nat) :
    accumulateBit (a ^^^ a') b (acc ^^^ acc') k = accumulateBit a b acc k ^^^ accumulateBit a' b acc' k := by
  unfold accumulateBit
  rw [BitVec.getLsbD_xor]
  cases a.getLsbD k <;> cases a'.getLsbD k <;> simp
  · ac_rfl
  · ac_rfl
  · ac_nf
    simp

theorem accumulateBit_xor_right (a b b' : Byte) (acc acc' : BitVec 15) (k : Nat) :
    accumulateBit a (b ^^^ b') (acc ^^^ acc') k = accumulateBit a b acc k ^^^ accumulateBit a b' acc' k := by
  unfold accumulateBit
  rw [BitVec.setWidth_xor, BitVec.shiftLeft_xor_distrib]
  split
  · ac_rfl
  · rfl

theorem carrylessProduct_xor_left (a a' b : Byte) :
    carrylessProduct (a ^^^ a') b = carrylessProduct a b ^^^ carrylessProduct a' b := by
  have hfold := List.foldl_hom₂ (List.range 8) (· ^^^ ·) _ _ _ 0 0
    fun acc acc' k => (accumulateBit_xor_left a a' b acc acc' k).symm
  rwa [BitVec.xor_self] at hfold

theorem carrylessProduct_xor_right (a b b' : Byte) :
    carrylessProduct a (b ^^^ b') = carrylessProduct a b ^^^ carrylessProduct a b' := by
  have hfold := List.foldl_hom₂ (List.range 8) (· ^^^ ·) _ _ _ 0 0
    fun acc acc' k => (accumulateBit_xor_right a b b' acc acc' k).symm
  rwa [BitVec.xor_self] at hfold

theorem multiply_xor_left (a a' b : Byte) : multiply (a ^^^ a') b = multiply a b ^^^ multiply a' b := by
  rw [multiply, carrylessProduct_xor_left, BitVec.setWidth_xor, divide_xor]
  rfl

theorem multiply_xor_right (a b b' : Byte) : multiply a (b ^^^ b') = multiply a b ^^^ multiply a b' := by
  rw [multiply, carrylessProduct_xor_right, BitVec.setWidth_xor, divide_xor]
  rfl

/-! ### The laws, from the one-bit bytes -/

theorem multiply_comm (a b : Byte) : multiply a b = multiply b a := by
  have oneBit : ∀ i j : Fin 8, multiply (.twoPow 8 i) (.twoPow 8 j) = multiply (.twoPow 8 j) (.twoPow 8 i) := by
    decide +kernel
  induction a using byte_xor_induction with
  | oneBit i =>
    induction b using byte_xor_induction with
    | oneBit j => exact oneBit i j
    | xor b b' hb hb' => rw [multiply_xor_right, multiply_xor_left, hb, hb']
  | xor a a' ha ha' => rw [multiply_xor_left, multiply_xor_right, ha, ha']

theorem multiply_assoc (a b c : Byte) : multiply (multiply a b) c = multiply a (multiply b c) := by
  have oneBit : ∀ i j k : Fin 8, multiply (multiply (.twoPow 8 i) (.twoPow 8 j)) (.twoPow 8 k) =
      multiply (.twoPow 8 i) (multiply (.twoPow 8 j) (.twoPow 8 k)) := by
    decide +kernel
  induction a using byte_xor_induction with
  | oneBit i =>
    induction b using byte_xor_induction with
    | oneBit j =>
      induction c using byte_xor_induction with
      | oneBit k => exact oneBit i j k
      | xor c c' hc hc' => simp only [multiply_xor_right, hc, hc']
    | xor b b' hb hb' => simp only [multiply_xor_left, multiply_xor_right, hb, hb']
  | xor a a' ha ha' => simp only [multiply_xor_left, ha, ha']

theorem multiply_one (a : Byte) : multiply a 1 = a := by
  induction a using byte_xor_induction with
  | oneBit k => revert k; decide
  | xor a a' ha ha' => rw [multiply_xor_left, ha, ha']

/-! ### Inverses -/

/-- The field inverse of a nonzero byte, read off the table `S`: the affine map of R133 undone. -/
def fieldInverse (b : Byte) : Byte :=
  (romS b).rotateLeft 1 ^^^ (romS b).rotateLeft 3 ^^^ (romS b).rotateLeft 6 ^^^ 0x05

theorem multiply_fieldInverse {b : Byte} (hb : b ≠ 0) : multiply b (fieldInverse b) = 1 := by
  have all : ∀ b : Byte, b ≠ 0 → multiply b (fieldInverse b) = 1 := by decide +kernel
  exact all b hb

theorem multiply_multiply_fieldInverse (a : Byte) {b : Byte} (hb : b ≠ 0) :
    multiply (multiply a b) (fieldInverse b) = a := by
  rw [multiply_assoc, multiply_fieldInverse hb, multiply_one]

theorem multiply_fieldInverse_multiply (a : Byte) {b : Byte} (hb : b ≠ 0) :
    multiply (multiply a (fieldInverse b)) b = a := by
  rw [multiply_assoc, multiply_comm (fieldInverse b), multiply_fieldInverse hb, multiply_one]

theorem multiply_bijective {b : Byte} (hb : b ≠ 0) : Function.Bijective fun a => multiply a b :=
  Function.bijective_iff_has_inverse.mpr ⟨fun a => multiply a (fieldInverse b),
    fun a => multiply_multiply_fieldInverse a hb, fun a => multiply_fieldInverse_multiply a hb⟩

/-! ### The statement -/

/-- Settles O27: the first three laws by bilinearity, the bijection by multiplying with the inverse. -/
theorem multiplyLaws : Obligations.MultiplyLaws :=
  ⟨multiply_comm, multiply_xor_right, multiply_one, fun _ hb => multiply_bijective hb⟩

end Sys2Proof.Machine
end

section
/-! The listing of `S` against the rule that produces it (spec/41_tables.md R133). `fieldInverse` undoes the affine map on
the entry of `S`; that it is the inverse of `multiply` is what checks the listing. -/

namespace Sys2Proof.Machine

open Sys2Proof

/-- The affine map `A` of R133. -/
def affineMap (b : Byte) : Byte :=
  b ^^^ b.rotateLeft 1 ^^^ b.rotateLeft 2 ^^^ b.rotateLeft 3 ^^^ b.rotateLeft 4 ^^^ 0x63

/-- The affine map is onto: what `fieldInverse` does to an entry of `S` is undone by it, on every byte. -/
theorem affineMap_undo (v : Byte) :
    affineMap (v.rotateLeft 1 ^^^ v.rotateLeft 3 ^^^ v.rotateLeft 6 ^^^ 0x05) = v := by
  revert v
  decide +kernel

theorem affineMap_fieldInverse (x : Byte) : affineMap (fieldInverse x) = romS x := affineMap_undo (romS x)

theorem fieldInverse_zero : fieldInverse 0 = 0 := by decide +kernel

theorem romS_zero : romS 0 = affineMap 0 := by rw [← affineMap_fieldInverse, fieldInverse_zero]

/-- A nonzero byte has no other inverse than `fieldInverse`: multiplying by it is injective. -/
theorem eq_fieldInverse_of_multiply_eq_one {x z : Byte} (hx : x ≠ 0) (hz : multiply x z = 1) : z = fieldInverse x := by
  apply (multiply_bijective hx).injective
  calc multiply z x = multiply x z := multiply_comm z x
    _ = multiply x (fieldInverse x) := by rw [hz, multiply_fieldInverse hx]
    _ = multiply (fieldInverse x) x := multiply_comm _ _

/-! ### The statement -/

/-- Settles O32: the inverse is `fieldInverse`, unique because multiplying by a nonzero byte is injective, and the affine
map takes it back to the entry of `S`. -/
theorem sboxIsAffineOfInverse : Obligations.SboxIsAffineOfInverse := by
  refine ⟨romS_zero, fun x hx => ?_, ?spotChecks⟩
  · exact ⟨fieldInverse x, multiply_fieldInverse hx, fun z => eq_fieldInverse_of_multiply_eq_one hx,
      (affineMap_fieldInverse x).symm⟩
  case spotChecks => decide +kernel

end Sys2Proof.Machine
end

section
/-! The commands with one Block operand, from their contract, and the byte substitutions of SUBB and ISUBB
(spec/42_round_transforms.md R161, R162). -/

namespace Sys2Proof.Machine

open Sys2Proof

/-! ### A command with one Block operand (R272) -/

theorem blockResponse_toList (x : Block) (f : Block → Result) : blockResponse x.toList f = .ok (f x) := by
  simp [blockResponse, formBlock_toList]

theorem blockResponse_of_length {bytes : List Byte} (h : bytes.length ≠ 16) (f : Block → Result) :
    blockResponse bytes f = .err .invalidBlockSize := by
  simp [blockResponse, (formBlock_none_iff bytes).mpr h]

/-- On 16 bytes the command completes with `f` of them. -/
theorem exec_responded_of_block {i : Instr} {s : State} {f : Block → Result}
    (hcontract : responseOf i s.a s.b = some (blockResponse s.a.block f)) {x : Block} (hx : s.a.block = x.toList) :
    ∃ t, exec i s = .next t ∧ Responded s t (.ok (f x)) := by
  rw [hx, blockResponse_toList] at hcontract
  refine ⟨s.respond (.ok (f x)), ?_, responded_respond s _⟩
  rw [exec_eq_conclude, hcontract, State.conclude_some]

/-- On any other length it fails, and only the response is changed (R273). -/
theorem exec_eq_failed_of_length {i : Instr} {s : State} {f : Block → Result}
    (hcontract : responseOf i s.a s.b = some (blockResponse s.a.block f)) (h : s.a.block.length ≠ 16) :
    exec i s = .next (failed s .invalidBlockSize) := by
  rw [exec_eq_conclude, hcontract, blockResponse_of_length h, State.conclude_some, State.respond_err, raise_eq_failed]

/-! ### The byte substitutions -/

theorem substituteBytes_replicate (v : Byte) :
    substituteBytes (Vector.replicate 16 v) = Vector.replicate 16 (romS v) :=
  block_ext fun i => by simp

theorem invSubstituteBytes_replicate (v : Byte) :
    invSubstituteBytes (Vector.replicate 16 v) = Vector.replicate 16 (romInvS v) :=
  block_ext fun i => by simp

/-- The listing of `S` has no fixed point (R132). -/
theorem romS_ne_self (x : Byte) : romS x ≠ x := by
  revert x
  decide +kernel

/-- A fixed Block would have a fixed byte at position 0. -/
theorem substituteBytes_ne_self (x : Block) : substituteBytes x ≠ x := by
  intro hfixed
  apply romS_ne_self x[0]
  rw [← substituteBytes_getElem, hfixed]

/-! ### The statement -/

/-- Settles O35: both commands by the one-operand contract, the corner cases from the entries of the two tables. -/
theorem substituteCommands : Obligations.SubstituteCommands := by
  refine ⟨by decide, by decide, fun s x hx => ?subb, fun s x hx => ?isubb, fun s hlength => ?wrongLength, ?allZero,
    ?allOnes, substituteBytes_ne_self, ?invCorner, ?worked, ?invWorked⟩
  case subb =>
    obtain ⟨t, hexec, hresponded⟩ := exec_responded_of_block (i := .subb) rfl hx
    exact ⟨t, substituteBytes x, hexec, hresponded, fun i => substituteBytes_getElem x i i.isLt⟩
  case isubb =>
    obtain ⟨t, hexec, hresponded⟩ := exec_responded_of_block (i := .isubb) rfl hx
    exact ⟨t, invSubstituteBytes x, hexec, hresponded, fun i => invSubstituteBytes_getElem x i i.isLt⟩
  case wrongLength => exact ⟨exec_eq_failed_of_length rfl hlength, exec_eq_failed_of_length rfl hlength⟩
  case allZero => exact substituteBytes_replicate 0x00
  case allOnes => exact substituteBytes_replicate 0xFF
  case invCorner => exact invSubstituteBytes_replicate 0x63
  case worked => decide +kernel
  case invWorked => decide +kernel

end Sys2Proof.Machine
end

section
/-! Key expansion Word by Word, the registers it writes, and the round key RKEY looks up
(spec/43_key_schedule.md R193, R196, R197). -/

namespace Sys2Proof.Machine

open Sys2Proof

/-! ### One step writes one Word, from earlier ones (R193) -/

theorem expandStep_getElem_self (words : Words44) (i : WordIndex) :
    (expandStep words i)[i.val]'i.lt = xorWord (words[i.val - 4]'(by have := i.lt; omega))
      (scheduleTemp i (words[i.val - 1]'(by have := i.lt; omega))) := by
  simp [expandStep]

theorem expandStep_getElem_of_lt (words : Words44) {i : WordIndex} {j : Nat} (h : j < i.val) :
    (expandStep words i)[j]'(h.trans i.lt) = words[j]'(h.trans i.lt) := by
  simp [expandStep, Vector.getElem_set_ne, h.ne']

/-- Steps at later indices keep a Word. -/
theorem foldl_expandStep_getElem_of_lt {l : List WordIndex} {j : Nat} (hl : ∀ i ∈ l, j < i.val) (hj : j < 44)
    (words : Words44) : (l.foldl expandStep words)[j] = words[j] := by
  induction l generalizing words with
  | nil => rfl
  | cons i l ih =>
    obtain ⟨hi, hl⟩ := List.forall_mem_cons.mp hl
    rw [List.foldl_cons, ih hl, expandStep_getElem_of_lt words hi]

/-! ### The expanded key (R193, R196) -/

theorem mem_wordIndices (i : WordIndex) : i ∈ wordIndices :=
  List.mem_map.mpr ⟨⟨i.val - 4, by have := i.lt; omega⟩, List.mem_finRange _, by
    obtain ⟨i, hge, hlt⟩ := i
    simp [Nat.sub_add_cancel hge]⟩

theorem wordIndices_pairwise_lt : wordIndices.Pairwise fun i j => i.val < j.val :=
  List.pairwise_map.mpr ((List.pairwise_lt_finRange 40).imp fun hlt => Nat.add_lt_add_right hlt 4)

/-- The loop comes to every index once, and only later indices follow it. -/
theorem wordIndices_split (i : WordIndex) :
    ∃ before after, wordIndices = before ++ i :: after ∧ ∀ j ∈ after, i.val < j.val := by
  obtain ⟨before, after, hsplit⟩ := List.append_of_mem (mem_wordIndices i)
  have hsorted := wordIndices_pairwise_lt
  rw [hsplit, List.pairwise_append, List.pairwise_cons] at hsorted
  obtain ⟨-, ⟨hafter, -⟩, -⟩ := hsorted
  exact ⟨before, after, hsplit, hafter⟩

/-- The first four Words stay the key's groups: the loop starts at index 4. -/
theorem expand_getElem_of_lt (key : Block) (j : Fin 4) : (expand key)[j.val] = keyGroup key j := by
  rw [expand, foldl_expandStep_getElem_of_lt fun i _ => j.isLt.trans_le i.ge]
  exact keyWords_getElem key (j.castLE (by decide)) j.isLt

/-- The recurrence of R193, between Words of the finished expansion: the step of index `i` reads two Words that no later
step writes, and no later step writes Word `i`. -/
theorem expand_getElem (key : Block) (i : WordIndex) :
    (expand key)[i.val]'i.lt = xorWord ((expand key)[i.val - 4]'(by have := i.lt; omega))
      (scheduleTemp i ((expand key)[i.val - 1]'(by have := i.lt; omega))) := by
  obtain ⟨before, after, hsplit, hafter⟩ := wordIndices_split i
  have hge := i.ge
  have hexpand : expand key = after.foldl expandStep (expandStep (before.foldl expandStep (keyWords key)) i) := by
    rw [expand, hsplit, List.foldl_append, List.foldl_cons]
  have hearlier : ∀ j (h : j < i.val), (expand key)[j]'(h.trans i.lt) =
      (before.foldl expandStep (keyWords key))[j]'(h.trans i.lt) := by
    intro j h
    simp only [hexpand]
    rw [foldl_expandStep_getElem_of_lt fun k hk => h.trans (hafter k hk), expandStep_getElem_of_lt _ h]
  rw [hearlier (i.val - 4) (by omega), hearlier (i.val - 1) (by omega), ← expandStep_getElem_self]
  simp only [hexpand]
  exact foldl_expandStep_getElem_of_lt hafter i.lt _

/-- A key's groups are its columns. -/
theorem keyGroup_eq_column (key : Block) (j : Fin 4) : keyGroup key j = column key j := rfl

/-- Round key 0 is the key: its four columns are the key's groups. -/
theorem schedule_getElem_zero (key : Block) : (schedule key)[0] = key := by
  refine block_ext_columns fun c => ?_
  rw [schedule_getElem, roundKeyOf_column, ← keyGroup_eq_column, ← expand_getElem_of_lt]
  simp

/-! ### The registers key expansion writes (R193) -/

theorem Work.loadKeyWords_eq (w : Work) : w.loadKeyWords = { w with store := w.loadKeyWords.store } := rfl

theorem Work.foldl_expandStep_eq (l : List WordIndex) (w : Work) :
    ∃ store temp wi, l.foldl Work.expandStep w = { w with store := store, temp := temp, wi := wi } := by
  induction l generalizing w with
  | nil => exact ⟨_, _, _, rfl⟩
  | cons i l ih => exact ih (w.expandStep i)

/-- Key expansion writes `KEYR`, `W`, `TEMP` and `WI` only. -/
theorem Work.expand_eq (w : Work) (key : Block) :
    ∃ temp wi, w.expand key = { w with keyr := key, store := Machine.expand key, temp := temp, wi := wi } := by
  obtain ⟨store, temp, wi, hfold⟩ := Work.foldl_expandStep_eq wordIndices (w.setKeyr key).loadKeyWords
  have hexpand : w.expand key = { w with keyr := key, store := store, temp := temp, wi := wi } := hfold
  have hstore : store = Machine.expand key := by rw [← Work.expand_store w key, hexpand]
  exact ⟨temp, wi, hstore ▸ hexpand⟩

/-! ### The statement on EXPAND -/

/-- Settles O44: the result by the one-operand contract, its Words by the recurrence on the finished expansion. -/
theorem expandResult : Obligations.ExpandResult := by
  refine ⟨by decide, fun s key hkey => ?result, Work.expand_eq, fun s => exec_eq_failed_of_length rfl, ?allZero,
    ?allOnes, ?worked⟩
  case result =>
    obtain ⟨t, hexec, hresponded⟩ := exec_responded_of_block (i := .expand) rfl hkey
    refine ⟨t, expand key, hexec, hresponded, fun j k => ?_, fun i h4 h => expand_getElem key ⟨i, h4, h⟩⟩
    rw [expand_getElem_of_lt]
    exact keyGroup_getElem key j k k.isLt
  case allZero => decide +kernel
  case allOnes => decide +kernel
  case worked => decide +kernel

/-! ### The round-key lookup (R197) -/

theorem lookupRoundKey_of_le (sched : Sched) {r : BitVec 4} (h : r.toNat ≤ 10) :
    lookupRoundKey sched r = some sched[r.toNat] := dif_pos h

theorem lookupRoundKey_of_lt (sched : Sched) {r : BitVec 4} (h : 10 < r.toNat) : lookupRoundKey sched r = none :=
  dif_neg h.not_ge

theorem exec_rkey_responded (s : State) {r : BitVec 4} (h : r.toNat ≤ 10) :
    ∃ t, exec (.rkey r) s = .next t ∧ Responded s t (.ok (.block s.a.sched[r.toNat])) := by
  refine ⟨s.respondOk (.block s.a.sched[r.toNat]), ?_, responded_respondOk s _⟩
  simp [exec_eq_conclude, responseOf, lookupRoundKey_of_le _ h]

theorem exec_rkey_eq_failed (s : State) {r : BitVec 4} (h : 10 < r.toNat) :
    exec (.rkey r) s = .next (failed s .invalidRoundIndex) := by
  simp [exec_eq_conclude, responseOf, lookupRoundKey_of_lt _ h, raise_eq_failed]

/-- Settles O47: both sides of the lookup's bound, and round key 0 of a key's schedule is the key. -/
theorem rkeyResult : Obligations.RkeyResult := by
  refine ⟨fun r => decode_eq_ok_iff.mpr ⟨rfl, ?word⟩, fun s r h => exec_rkey_responded s h,
    fun s r h => exec_rkey_eq_failed s h, fun s key hsched => ?roundZero, fun s hsched => ?worked⟩
  case word => simp [encode, commandWord]
  case roundZero =>
    have hentry : s.a.sched[0] = key := by rw [hsched, schedule_getElem_zero]
    exact hentry ▸ exec_rkey_responded s (r := 0) (by decide)
  case worked =>
    have hentry : s.a.sched[10] = hexBlock 0x13111d7fe3944a17f307a78b4d2b30c5 := by
      rw [hsched]
      decide +kernel
    exact hentry ▸ exec_rkey_responded s (r := 10) (by decide)

end Sys2Proof.Machine
end

section
/-! The commands with two Block operands, from their contract, and the named states of a decryption, `d[10]` down to
`d[0]` (spec/44_cipher_engine.md R223, R224). -/

namespace Sys2Proof.Machine

open Sys2Proof

/-! ### A command with two Block operands (R272) -/

theorem blocksResponse_toList (x y : Block) (f : Block → Block → Response) :
    blocksResponse x.toList y.toList f = f x y := by
  simp [blocksResponse, formBlock_toList]

theorem blocksResponse_of_length {xs ys : List Byte} (h : xs.length ≠ 16 ∨ ys.length ≠ 16)
    (f : Block → Block → Response) : blocksResponse xs ys f = .err .invalidBlockSize := by
  rcases h with h | h
  · simp [blocksResponse, (formBlock_none_iff xs).mpr h]
  · simp [blocksResponse, (formBlock_none_iff ys).mpr h]

/-- On 16 bytes each the command answers what `f` makes of them. -/
theorem exec_responded_of_blocks {i : Instr} {s : State} {f : Block → Block → Response}
    (hcontract : responseOf i s.a s.b = some (blocksResponse s.a.block s.b.block f)) {x y : Block}
    (hx : s.a.block = x.toList) (hy : s.b.block = y.toList) : ∃ t, exec i s = .next t ∧ Responded s t (f x y) := by
  rw [hx, hy, blocksResponse_toList] at hcontract
  refine ⟨s.respond (f x y), ?_, responded_respond s _⟩
  rw [exec_eq_conclude, hcontract, State.conclude_some]

/-- On any other length of either it fails, and only the response is changed (R273). -/
theorem exec_eq_failed_of_lengths {i : Instr} {s : State} {f : Block → Block → Response}
    (hcontract : responseOf i s.a s.b = some (blocksResponse s.a.block s.b.block f))
    (h : s.a.block.length ≠ 16 ∨ s.b.block.length ≠ 16) : exec i s = .next (failed s .invalidBlockSize) := by
  rw [exec_eq_conclude, hcontract, blocksResponse_of_length h, State.conclude_some, State.respond_err, raise_eq_failed]

/-! ### The named states of a decryption (R223, R224) -/

/-- `d[r]`, by the round key it was made with: the model's `decStateAfter` counts the rounds done instead. -/
def decState (rk : Sched) (cipher : Block) (r : Nat) : Block := decStateAfter rk cipher (10 - r) (Nat.sub_le 10 r)

theorem decState_ten (rk : Sched) (cipher : Block) : decState rk cipher 10 = mixRoundKey cipher rk[10] := rfl

/-- A middle round: `d[r]` comes from `d[r + 1]` and round key `r`. -/
theorem decState_of_middle (rk : Sched) (cipher : Block) {r : Nat} (h : 1 ≤ r ∧ r ≤ 9) :
    decState rk cipher r = inverseRound (decState rk cipher (r + 1)) rk[r] := by
  obtain ⟨n, hn⟩ : ∃ n, 10 - r = n + 1 := ⟨9 - r, by omega⟩
  have hlast : n + 1 ≠ 10 := by omega
  have hnext : 10 - (r + 1) = n := by omega
  have hkey : 10 - (n + 1) = r := by omega
  simp only [decState, hn, hnext, decStateAfter, if_neg hlast, hkey]

theorem decState_zero (rk : Sched) (cipher : Block) :
    decState rk cipher 0 = inverseFinalRound (decState rk cipher 1) rk[0] := rfl

theorem decrypt_eq_decState_zero (cipher key : Block) : decrypt cipher key = decState (schedule key) cipher 0 := rfl

/-- The worked example of R223, as a fact of `decrypt` alone: a full decryption is slow to evaluate, so it is done once. -/
theorem decrypt_workedExample :
    decrypt (hexBlock 0x69c4e0d86a7b0430d8cdb78070b4c55a) (hexBlock 0x000102030405060708090a0b0c0d0e0f) =
      hexBlock 0x00112233445566778899aabbccddeeff := by
  decide +kernel

/-! ### The statement on DEC -/

/-- Settles O51: the result by the two-operand contract, with `decState` as the named values. -/
theorem decResult : Obligations.DecResult := by
  refine ⟨by decide, fun s cipher key hcipher hkey => ?result, fun s => exec_eq_failed_of_lengths rfl,
    decrypt_workedExample⟩
  case result =>
    obtain ⟨t, hexec, hresponded⟩ := exec_responded_of_blocks (i := .dec) rfl hcipher hkey
    exact ⟨t, decState (schedule key) cipher, hexec, hresponded, decState_ten _ cipher,
      fun r h => decState_of_middle _ cipher h, decState_zero _ cipher, decrypt_eq_decState_zero cipher key⟩

end Sys2Proof.Machine
end

section
/-! The two directions of the boundary codec bit by bit: PARSE from the bits of a parsed byte, RENDER from the characters
of a rendered Block (spec/45_boundary_codec.md R251, R252). -/

namespace Sys2Proof.Machine

open Sys2Proof

/-! ### The strings PARSE accepts (R251) -/

@[simp] theorem isDigit_iff {c : BitChar} : isDigit c = true ↔ c = .zero ∨ c = .one := by
  cases c <;> simp [isDigit]

theorem parseBits_toList {v : Vector BitChar 128} (h : ∀ c ∈ v.toList, c = .zero ∨ c = .one) :
    parseBits v.toList = some (Vector.ofFn (parseByte v)) := by
  have hdigits : v.toList.all isDigit = true := List.all_eq_true.mpr fun c hc => isDigit_iff.mpr (h c hc)
  rw [parseBits, dif_pos v.length_toList, if_pos hdigits]
  rfl

/-- No value for the two reasons R251 names, and for no other. -/
theorem parseBits_eq_none_iff {l : List BitChar} :
    parseBits l = none ↔ l.length ≠ 128 ∨ ∃ c ∈ l, c ≠ .zero ∧ c ≠ .one := by
  have hforeign : ¬ l.all isDigit = true ↔ ∃ c ∈ l, c ≠ .zero ∧ c ≠ .one := by
    simp [List.all_eq_true]
  rw [← hforeign, parseBits]
  split_ifs with hlength hdigits
  · simp [hlength, hdigits]
  · simp [hdigits]
  · simp [hlength]

/-! ### The bits of a parsed byte (R251) -/

theorem digitValue_eq (c : BitChar) : digitValue c = (decide (c = .one)).toNat := by
  by_cases h : c = .one <;> simp [digitValue, h]

/-- A number is the sum of its bits at their weights, here with the most significant bit first. -/
theorem sum_shiftLeft_eq_ofBits {n : Nat} (f : Fin n → Bool) :
    ((List.finRange n).map fun k => (f k).toNat <<< (n - 1 - k.val)).sum = Nat.ofBits (f ∘ Fin.rev) := by
  induction n with
  | zero => rfl
  | succ n ih =>
    have hdouble (k : Fin n) :
        (f k.castSucc).toNat <<< (n - k.val) = 2 * (f k.castSucc).toNat <<< (n - 1 - k.val) := by
      rw [← Nat.shiftLeft_succ]
      congr 1
      omega
    have hhigh : (f ∘ Fin.rev) ∘ Fin.succ = (f ∘ Fin.castSucc) ∘ Fin.rev :=
      funext fun k => congrArg f (Fin.rev_succ k)
    rw [Nat.ofBits_succ, hhigh, ← ih, ← List.sum_map_mul_left, List.finRange_succ_last]
    simp [hdouble, Function.comp_def]

theorem parseByte_eq_ofFnBE (v : Vector BitChar 128) (i : Fin 16) :
    parseByte v i = BitVec.ofFnBE fun k : Fin 8 => decide (v[8 * i.val + k.val] = .one) := by
  have hsum := sum_shiftLeft_eq_ofBits fun k : Fin 8 => decide (v[8 * i.val + k.val] = .one)
  rw [← BitVec.toNat_ofFnBE] at hsum
  simp only [parseByte, digitValue_eq]
  exact (congrArg (BitVec.ofNat 8) hsum).trans (by rw [BitVec.ofNat_toNat, BitVec.setWidth_eq])

theorem parseByte_getLsbD (v : Vector BitChar 128) (i : Fin 16) (k : Fin 8) :
    (parseByte v i).getLsbD (7 - k.val) = decide (v[8 * i.val + k.val] = .one) := by
  rw [parseByte_eq_ofFnBE]
  exact BitVec.getMsb_ofFnBE _ k

/-! ### The characters of a rendered Block (R252) -/

theorem renderBits_getElem (b : Block) (i : Fin 16) (k : Fin 8) :
    (renderBits b)[8 * i.val + k.val] = digitChar ((b[i]).getLsbD (7 - k.val)) := by
  have hbyte : (8 * i.val + k.val) / 8 = i.val := by omega
  have hbit : (8 * i.val + k.val) % 8 = k.val := by omega
  simp [renderBits, hbyte, hbit]

/-! ### A run of PARSE, by what `parseBits` makes of the operand (R251) -/

theorem exec_parse_responded {s : State} {x : Block} (h : parseBits s.a.bits = some x) :
    ∃ t, exec .parse s = .next t ∧ Responded s t (.ok (.block x)) := by
  refine ⟨s.respondOk (.block x), ?_, responded_respondOk s _⟩
  simp [exec_eq_conclude, responseOf, h]

theorem exec_parse_eq_failed {s : State} (h : parseBits s.a.bits = none) :
    exec .parse s = .next (failed s .invalidInputLength) := by
  simp [exec_eq_conclude, responseOf, h, raise_eq_failed]

/-! ### The statements -/

/-- Settles O57: the digits are the bits of the parsed bytes; what fails is what `parseBits` gives no value. -/
theorem parseResult : Obligations.ParseResult := by
  refine ⟨by decide, fun s v hbits hdigits => ?result, fun s h => exec_parse_eq_failed (parseBits_eq_none_iff.mpr h),
    ?empty, ?short, ?long, fun n => ?foreign, ?allZero, ?allOnes⟩
  case result =>
    have hparse : parseBits s.a.bits = some (Vector.ofFn (parseByte v)) := by
      rw [hbits]
      refine parseBits_toList fun c hc => ?_
      obtain ⟨j, hj, rfl⟩ := Vector.mem_iff_getElem.mp (Vector.mem_toList_iff.mp hc)
      exact hdigits ⟨j, hj⟩
    obtain ⟨t, hexec, hresponded⟩ := exec_parse_responded hparse
    refine ⟨t, _, hexec, hresponded, fun i k => ?_⟩
    rw [← parseByte_getLsbD]
    simp
  case empty => exact parseBits_eq_none_iff.mpr (.inl (by simp))
  case short => exact parseBits_eq_none_iff.mpr (.inl (by simp))
  case long => exact parseBits_eq_none_iff.mpr (.inl (by simp))
  case foreign => exact parseBits_eq_none_iff.mpr (.inr ⟨.other n, by simp, by simp⟩)
  case allZero => decide +kernel
  case allOnes => decide +kernel

/-- Settles O58: by the one-operand contract, with every character of the rendered Block. -/
theorem renderResult : Obligations.RenderResult := by
  refine ⟨by decide, fun s x hx => ?result, fun s => exec_eq_failed_of_length rfl, ?worked⟩
  case result =>
    obtain ⟨t, hexec, hresponded⟩ := exec_responded_of_block (i := .render) rfl hx
    exact ⟨t, renderBits x, hexec, hresponded, renderBits_getElem x⟩
  case worked => decide +kernel

end Sys2Proof.Machine
end

section
/-! Which command raises which error kind and when: the table of R271 as one equivalence per kind of check, and the
statements on the three kinds (spec/60_exceptions.md R271, R272, R275, R277). -/

namespace Sys2Proof.Machine

open Sys2Proof

/-! ### A failing run is an error response of the contract -/

theorem State.respond_eq_failed_iff {s : State} {r : Response} {kind : ErrorKind} :
    s.respond r = failed s kind ↔ r = .err kind := by
  cases r with
  | ok res => simp [respondOk_ne_failed]
  | err other =>
    rw [State.respond_err, raise_eq_failed, Response.err.injEq]
    exact ⟨failed_inj, fun h => by rw [h]⟩

/-- A command fails with a kind exactly where its contract's response is that error. -/
theorem exec_eq_failed_iff {i : Instr} {s : State} {kind : ErrorKind} :
    exec i s = .next (failed s kind) ↔ responseOf i s.a s.b = some (.err kind) := by
  rw [exec_eq_conclude]
  cases responseOf i s.a s.b with
  | none => simp
  | some r => simp [State.respond_eq_failed_iff]

/-- A step that shows an error response is the failing one: nothing else of the state differs (R273). -/
theorem exec_eq_failed_of_response {i : Instr} {s t : State} {kind : ErrorKind} (hexec : exec i s = .next t)
    (herr : t.response = some (.err kind)) : exec i s = .next (failed s kind) := by
  rw [exec_eq_failed_iff, ← answer_exec, hexec]
  exact herr

/-! ### The checks (R272, R274, R275, R277) -/

theorem blockResponse_eq_err_iff {bytes : List Byte} {f : Block → Result} {kind : ErrorKind} :
    blockResponse bytes f = .err kind ↔ kind = .invalidBlockSize ∧ bytes.length ≠ 16 := by
  rw [← formBlock_none_iff]
  cases h : formBlock bytes <;> simp [blockResponse, h, eq_comm]

/-- `mine` says when the command's own answer on two Blocks is the error: it counts only where both lengths are right. -/
theorem blocksResponse_eq_err_iff {xs ys : List Byte} {f : Block → Block → Response} {kind : ErrorKind} {mine : Prop}
    (hmine : ∀ x y, f x y = .err kind ↔ mine) :
    blocksResponse xs ys f = .err kind ↔
      kind = .invalidBlockSize ∧ (xs.length ≠ 16 ∨ ys.length ≠ 16) ∨ (xs.length = 16 ∧ ys.length = 16) ∧ mine := by
  by_cases hlengths : xs.length = 16 ∧ ys.length = 16
  case pos =>
    obtain ⟨x, rfl⟩ := exists_block_of_length hlengths.1
    obtain ⟨y, rfl⟩ := exists_block_of_length hlengths.2
    simp [blocksResponse_toList, hmine]
  case neg =>
    have hwrong : xs.length ≠ 16 ∨ ys.length ≠ 16 := by omega
    simp [blocksResponse_of_length hwrong, hwrong, hlengths, eq_comm]

/-- Where a command with two operands answers `Ok` on any two Blocks, only the lengths can fail. -/
theorem blocksResponse_ok_eq_err_iff {xs ys : List Byte} {f : Block → Block → Result} {kind : ErrorKind} :
    (blocksResponse xs ys fun x y => .ok (f x y)) = .err kind ↔
      kind = .invalidBlockSize ∧ (xs.length ≠ 16 ∨ ys.length ≠ 16) := by
  rw [blocksResponse_eq_err_iff (mine := False) (by simp)]
  simp

theorem lookupRoundKey_eq_none_iff {sched : Sched} {r : BitVec 4} : lookupRoundKey sched r = none ↔ 10 < r.toNat := by
  simp [lookupRoundKey]

/-! ### The table of R271 -/

/-- Which errors a command raises and when, by the checks its operands call for; ten commands raise nothing. -/
def raises (i : Instr) (a : PortA) (b : PortB) (kind : ErrorKind) : Prop :=
  match i with
  | .gmul | .gred | .sbox | .isbox | .rcon _ | .shift | .ishift | .rotw | .subw | .reshape => False
  | .subb | .isubb | .perm | .iperm | .diff | .idiff | .expand | .render =>
    kind = .invalidBlockSize ∧ a.block.length ≠ 16
  | .mixk | .enc | .dec => kind = .invalidBlockSize ∧ (a.block.length ≠ 16 ∨ b.block.length ≠ 16)
  | .pround r _ =>
    kind = .invalidBlockSize ∧ (a.block.length ≠ 16 ∨ b.block.length ≠ 16) ∨
      (a.block.length = 16 ∧ b.block.length = 16) ∧ kind = .invalidRoundIndex ∧ (r.toNat < 1 ∨ 10 < r.toNat)
  | .rkey r => kind = .invalidRoundIndex ∧ 10 < r.toNat
  | .parse => kind = .invalidInputLength ∧ (a.bits.length ≠ 128 ∨ ∃ c ∈ a.bits, c ≠ .zero ∧ c ≠ .one)

theorem responseOf_rkey_eq_err_iff {r : BitVec 4} {a : PortA} {b : PortB} {kind : ErrorKind} :
    responseOf (.rkey r) a b = some (.err kind) ↔ raises (.rkey r) a b kind := by
  rw [raises, ← lookupRoundKey_eq_none_iff (sched := a.sched)]
  cases h : lookupRoundKey a.sched r <;> simp [responseOf, h, eq_comm]

theorem responseOf_parse_eq_err_iff {a : PortA} {b : PortB} {kind : ErrorKind} :
    responseOf .parse a b = some (.err kind) ↔ raises .parse a b kind := by
  rw [raises, ← parseBits_eq_none_iff]
  cases h : parseBits a.bits <;> simp [responseOf, h, eq_comm]

theorem responseOf_pround_eq_err_iff {r : BitVec 4} {sel : RoundSelector} {a : PortA} {b : PortB} {kind : ErrorKind} :
    responseOf (.pround r sel) a b = some (.err kind) ↔ raises (.pround r sel) a b kind := by
  rw [responseOf, Option.some.injEq]
  refine blocksResponse_eq_err_iff fun st k => ?_
  have hout : (r.toNat < 1 ∨ 10 < r.toNat) ↔ ¬ (1 ≤ r.toNat ∧ r.toNat ≤ 10) := by omega
  rw [hout]
  by_cases hround : 1 ≤ r.toNat ∧ r.toNat ≤ 10 <;> simp [hround, eq_comm]

/-- The contract gives an error exactly where the table says so. -/
theorem responseOf_eq_err_iff {i : Instr} {a : PortA} {b : PortB} {kind : ErrorKind} :
    responseOf i a b = some (.err kind) ↔ raises i a b kind := by
  cases i with
  | gmul | gred | sbox | isbox | rcon | shift | ishift | rotw | subw | reshape => simp [responseOf, raises]
  | subb | isubb | perm | iperm | diff | idiff | expand | render =>
    simp only [responseOf, Option.some.injEq, blockResponse_eq_err_iff, raises]
  | mixk | enc | dec => simp only [responseOf, Option.some.injEq, blocksResponse_ok_eq_err_iff, raises]
  | rkey r => exact responseOf_rkey_eq_err_iff
  | pround r sel => exact responseOf_pround_eq_err_iff
  | parse => exact responseOf_parse_eq_err_iff

theorem exec_eq_failed_iff_raises {i : Instr} {s : State} {kind : ErrorKind} :
    exec i s = .next (failed s kind) ↔ raises i s.a s.b kind :=
  exec_eq_failed_iff.trans responseOf_eq_err_iff

/-! ### The statements -/

/-- Settles O21: the rows of the table that name `InvalidBlockSize`. -/
theorem invalidBlockSizeExactly : Obligations.InvalidBlockSizeExactly := by
  intro i s
  rw [exec_eq_failed_iff_raises]
  cases i <;> simp [raises]

/-- Settles O22: the row of PARSE is the only one that names `InvalidInputLength`. -/
theorem invalidInputLengthExactly : Obligations.InvalidInputLengthExactly := by
  intro i s
  rw [exec_eq_failed_iff_raises]
  cases i <;> simp [raises]

/-- Settles O23: the rows of RKEY and PROUND are the ones that name `InvalidRoundIndex`. -/
theorem invalidRoundIndexExactly : Obligations.InvalidRoundIndexExactly := by
  intro i s
  rw [exec_eq_failed_iff_raises]
  cases i <;> simp [raises, and_assoc]

/-- Settles O20: a step with an error response is a failing one, so the raisers of each kind are those of O21 to O23. -/
theorem errorCodesAndRaisers : Obligations.ErrorCodesAndRaisers := by
  refine ⟨fun _ => rfl, rfl, rfl, rfl, fun i s t kind hexec herr => ?raisers⟩
  have hfailed := exec_eq_failed_of_response hexec herr
  cases kind with
  | invalidBlockSize =>
    refine .inl ⟨rfl, ?_⟩
    rcases (invalidBlockSizeExactly i s).mp hfailed with ⟨hone, -⟩ | ⟨htwo, -⟩
    · rcases hone with rfl | rfl | rfl | rfl | rfl | rfl | rfl | rfl <;> simp
    · rcases htwo with rfl | rfl | rfl | ⟨r, sel, rfl⟩ <;> simp
  | invalidInputLength =>
    obtain ⟨hparse, -⟩ := (invalidInputLengthExactly i s).mp hfailed
    exact .inr (.inl ⟨rfl, hparse⟩)
  | invalidRoundIndex =>
    refine .inr (.inr ⟨rfl, ?_⟩)
    rcases (invalidRoundIndexExactly i s).mp hfailed with ⟨r, hrkey, -⟩ | ⟨r, sel, hpround, -⟩
    · exact .inl ⟨r, hrkey⟩
    · exact .inr ⟨r, sel, hpround⟩

end Sys2Proof.Machine
end

section
/-! What issuing a command on an idle engine and running it answers: the contract of the decoded word, which names neither
the state it is issued on nor an earlier command (spec/70_reset_and_hazards.md R302, R313). -/

namespace Sys2Proof.Machine

open Sys2Proof

/-! ### A legal command has a response -/

/-- The contract leaves out only RCON outside 1..10, which is not well formed (R137). -/
theorem responseOf_isSome_of_wellFormed {i : Instr} (hlegal : i.wellFormed = true) (a : PortA) (b : PortB) :
    (responseOf i a b).isSome = true := by
  cases i with
  | rcon j =>
    have hindex : 1 ≤ j.toNat ∧ j.toNat ≤ 10 := by simpa [Instr.wellFormed, rconIndexLegal] using hlegal
    simp [responseOf, hindex]
  | _ => rfl

/-! ### One command on an idle engine -/

/-- A step with a command in flight answers the contract's response of the decoded word, and nothing on a reserved word. -/
theorem answer_step_of_inFlight {s : State} (hbusy : s.inFlight = true) :
    answer (step s) = (decode s.cw).toOption.bind fun i => responseOf i s.a s.b := by
  cases hdecode : decode s.cw with
  | error why =>
    rw [step_of_decode_eq_error hbusy hdecode]
    rfl
  | ok i =>
    have hstep : step s = exec i s := by simp [step, hbusy, hdecode]
    rw [hstep]
    exact answer_exec i s

/-- An idle engine runs a command by the step of the state that holds it in flight, its operands on the ports (R306, R313). -/
theorem runCommand_of_idle {s : State} (hidle : s.inFlight = false) (cw : CommandWord) (a : PortA) (b : PortB) :
    runCommand s cw a b = step { s with inFlight := true, cw := cw, a := a, b := b, response := none } := by
  simp [runCommand, State.issue, hidle]

/-- What a command on an idle engine answers is fixed by its word and operands alone (R21, R303). -/
theorem answer_runCommand_of_idle {s : State} (hidle : s.inFlight = false) (cw : CommandWord) (a : PortA) (b : PortB) :
    answer (runCommand s cw a b) = (decode cw).toOption.bind fun i => responseOf i a b := by
  rw [runCommand_of_idle hidle]
  exact answer_step_of_inFlight rfl

/-! ### The statement -/

/-- Settles O11: reset is one idle state among others, and a word that decodes is a well-formed command, which the contract
gives a response. -/
theorem firstCommandLikeAnyOther : Obligations.FirstCommandLikeAnyOther := by
  intro s cw a b hidle
  have hreset := answer_runCommand_of_idle (s := State.reset) rfl cw a b
  refine ⟨hreset.trans (answer_runCommand_of_idle hidle cw a b).symm, fun i hdecode => ?_⟩
  obtain ⟨hlegal, -⟩ := decode_eq_ok_iff.mp hdecode
  rw [hreset, hdecode]
  exact responseOf_isSome_of_wellFormed hlegal a b

end Sys2Proof.Machine
end

section
/-! The encoder and the decoder against each other, and the words the spec writes out (spec/30_encoding.md R81, R83, R96;
spec/95_test_vectors.md section 12). -/

namespace Sys2Proof.Machine

open Sys2Proof

/-! ### A PROUND that fails at its round test (R274, R277) -/

/-- With both lengths right, a round outside 1..10 is the one fault left. -/
theorem exec_pround_eq_failed_of_round {round : BitVec 4} (sel : RoundSelector) {s : State}
    (ha : s.a.block.length = 16) (hb : s.b.block.length = 16) (hround : ¬ (1 ≤ round.toNat ∧ round.toNat ≤ 10)) :
    exec (.pround round sel) s = .next (failed s .invalidRoundIndex) :=
  (invalidRoundIndexExactly _ s).mpr (.inr ⟨round, sel, rfl, ha, hb, by omega⟩)

theorem length_of_eq_toList {bytes : List Byte} {x : Block} (h : bytes = x.toList) : bytes.length = 16 := by
  rw [h, Vector.length_toList]

/-! ### The statements -/

/-- Settles O2: the round trip of the decoder's laws. -/
theorem decodeOfEncode : Obligations.DecodeOfEncode :=
  fun _ hlegal => decode_encode hlegal

/-- Settles O3: the only words that decode are encodings of well-formed commands. -/
theorem encodeOfDecode : Obligations.EncodeOfDecode := by
  intro w i hdecode
  obtain ⟨hlegal, hword⟩ := decode_eq_ok_iff.mp hdecode
  exact ⟨hword, hlegal⟩

/-- Settles O1: twenty closed evaluations of the decoder. -/
theorem decoderVectors : Obligations.DecoderVectors := by
  unfold Obligations.DecoderVectors
  decide

/-- Settles O6: the formulas are `commandWord` with the fields that are zero left out; both illegal rounds decode and
fail in their own test. -/
theorem workedEncodings : Obligations.WorkedEncodings := by
  refine ⟨fun j => ?rcon, by decide, by decide, fun r => ?rkey, by decide, by decide, by decide, by decide,
    fun s => exec_rkey_eq_failed s (by decide), fun _ _ => rfl, by decide, by decide, by decide, by decide, by decide,
    fun s x y hx hy => ?proundZero, by decide⟩
  case rcon => simp [encode, commandWord]
  case rkey => simp [encode, commandWord]
  case proundZero =>
    exact exec_pround_eq_failed_of_round .full (length_of_eq_toList hx) (length_of_eq_toList hy) (by decide)

/-- Settles O24: the two length tests, then the round test. -/
theorem proundCheckOrder : Obligations.ProundCheckOrder :=
  fun _ sel _ => ⟨fun ha => exec_eq_failed_of_lengths rfl (.inl ha),
    fun _ hb => exec_eq_failed_of_lengths rfl (.inr hb), exec_pround_eq_failed_of_round sel⟩

end Sys2Proof.Machine
end

section
/-! Issue, reset and step as state changes, and the invariant of an engine that keeps its contract
(spec/30_encoding.md R89; spec/60_exceptions.md R273, R276; spec/70_reset_and_hazards.md R300 to R306). -/

namespace Sys2Proof.Machine

open Sys2Proof

/-! ### What issue and step can do -/

theorem issue_of_busy {s : State} (hbusy : s.inFlight = true) (cw : CommandWord) (a : PortA) (b : PortB) :
    s.issue cw a b = none := by
  simp [State.issue, hbusy]

/-- An idle engine takes the word and the operands whole and shows no response (R306, log 28). -/
theorem issue_of_idle {s : State} (hidle : s.inFlight = false) (cw : CommandWord) (a : PortA) (b : PortB) :
    s.issue cw a b = some { s with inFlight := true, cw := cw, a := a, b := b, response := none } := by
  simp [State.issue, hidle]

theorem step_of_idle {s : State} (hidle : s.inFlight = false) : step s = .next s := by
  simp [step, hidle]

theorem step_of_decode_eq_ok {s : State} {i : Instr} (hbusy : s.inFlight = true) (hdecode : decode s.cw = .ok i) :
    step s = exec i s := by
  simp [step, hbusy, hdecode]

/-- A command that has a response completes with it. -/
theorem exec_responded_of_responseOf {i : Instr} {s : State} {r : Response} (hr : responseOf i s.a s.b = some r) :
    ∃ t, exec i s = .next t ∧ Responded s t r :=
  ⟨s.respond r, by rw [exec_eq_conclude, hr, State.conclude_some], responded_respond s r⟩

/-- Everything a command can do to reach a next state: the contract gives a response, and the state is the one that has
responded it. -/
theorem exec_eq_next_iff {i : Instr} {s t : State} :
    exec i s = .next t ↔ ∃ r, responseOf i s.a s.b = some r ∧ s.respond r = t := by
  rw [exec_eq_conclude]
  cases responseOf i s.a s.b <;> simp

/-- Everything a step can do to reach a next state: nothing on an idle engine, else the decoded command. -/
theorem step_eq_next_cases {s t : State} (hstep : step s = .next t) :
    (s.inFlight = false ∧ t = s) ∨ ∃ i, decode s.cw = .ok i ∧ exec i s = .next t := by
  cases hflight : s.inFlight with
  | false =>
    rw [step_of_idle hflight, Host.Outcome.next.injEq] at hstep
    exact .inl ⟨rfl, hstep.symm⟩
  | true =>
    cases hdecode : decode s.cw with
    | error why =>
      rw [step_of_decode_eq_error hflight hdecode] at hstep
      cases hstep
    | ok i => exact .inr ⟨i, rfl, by rw [← step_of_decode_eq_ok hflight hdecode, hstep]⟩

/-! ### The invariant -/

/-- An engine that shows no response is settled. -/
theorem settled_of_response_none {s : State} (h : s.response = none) : Settled s := by
  intro _ r hr
  rw [h] at hr
  cases hr

/-- A command on the port that has just responded leaves the engine settled: word and operands still stand there. -/
theorem settled_of_exec {i : Instr} {s t : State} (hdecode : decode s.cw = .ok i) (hexec : exec i s = .next t) :
    Settled t := by
  obtain ⟨r, hcontract, rfl⟩ := exec_eq_next_iff.mp hexec
  obtain ⟨hresponse, -, hcw, ha, hb⟩ := responded_respond s r
  intro _ r' hr'
  rw [hresponse, Option.some.injEq] at hr'
  exact ⟨i, hcw ▸ hdecode, by rw [ha, hb, hcontract, hr']⟩

/-- Settles O16: an idle step changes nothing, any other step is a command on the port that responds. -/
theorem settledKeptByStep : Obligations.SettledKeptByStep := by
  intro s t hsettled hstep
  rcases step_eq_next_cases hstep with ⟨-, rfl⟩ | ⟨i, hdecode, hexec⟩
  · exact hsettled
  · exact settled_of_exec hdecode hexec

/-- Settles O17: no response stands at reset. -/
theorem settledAtReset : Obligations.SettledAtReset := settled_of_response_none rfl

/-- Settles O18: both interactions leave no response standing. -/
theorem settledKeptByHost : Obligations.SettledKeptByHost := by
  refine ⟨fun s t cw a b _ hissue => settled_of_response_none ?_, fun s _ => settled_of_response_none rfl⟩
  cases hflight : s.inFlight with
  | false =>
    rw [issue_of_idle hflight, Option.some.injEq] at hissue
    rw [← hissue]
  | true =>
    rw [issue_of_busy hflight] at hissue
    cases hissue

/-! ### The statements on commands -/

/-- Settles O13: a well-formed command has a response, and running it is concluding it with that response. -/
theorem everyCommandMeetsContract : Obligations.EveryCommandMeetsContract := by
  intro i s hlegal
  obtain ⟨r, hr⟩ := Option.isSome_iff_exists.mp (responseOf_isSome_of_wellFormed hlegal s.a s.b)
  obtain ⟨t, hexec, hresponded⟩ := exec_responded_of_responseOf hr
  exact ⟨t, r, hr, hexec, hresponded⟩

/-- Settles O14: a word that decodes is a well-formed command, and the state it leaves is idle. -/
theorem everyCommandResponds : Obligations.EveryCommandResponds := by
  intro s i hbusy hdecode
  obtain ⟨hlegal, -⟩ := decode_eq_ok_iff.mp hdecode
  obtain ⟨t, r, -, hexec, hresponded⟩ := everyCommandMeetsContract i s hlegal
  have ⟨_, hidle, _⟩ := hresponded
  exact ⟨t, r, by rw [step_of_decode_eq_ok hbusy hdecode, hexec], hresponded, step_of_idle hidle⟩

/-- Settles O15: the next state is the one that has responded. -/
theorem commandFrame : Obligations.CommandFrame := by
  intro i s t hexec
  obtain ⟨r, -, rfl⟩ := exec_eq_next_iff.mp hexec
  obtain ⟨hresponse, hidle, hcw, ha, hb⟩ := responded_respond s r
  exact ⟨hcw, ha, hb, hidle, by rw [hresponse]; rfl⟩

/-- Settles O19: the next state is `failed s k`, which differs from `s` in being idle with the error as its response. -/
theorem errorLeavesNoTrace : Obligations.ErrorLeavesNoTrace := by
  intro i s t k hexec herr
  obtain rfl : t = failed s k := Host.Outcome.next.inj (hexec.symm.trans (exec_eq_failed_of_response hexec herr))
  exact ⟨rfl, rfl, rfl, rfl, rfl, rfl, fun _ _ _ => rfl⟩

/-! ### The statements on step, issue and reset -/

/-- Settles O7: the two branches of a step. -/
theorem stepRunsDecodedCommand : Obligations.StepRunsDecodedCommand :=
  ⟨fun _ _ => step_of_decode_eq_ok, fun _ => step_of_idle⟩

/-- Settles O8: reset is an idle state. -/
theorem resetIsIdle : Obligations.ResetIsIdle :=
  ⟨rfl, rfl, fun cw a b => ⟨_, issue_of_idle rfl cw a b, rfl, rfl, rfl, rfl, rfl⟩⟩

/-- Settles O9: the two branches of an issue. -/
theorem issueOnlyWhenIdle : Obligations.IssueOnlyWhenIdle :=
  fun _ cw a b => ⟨fun hbusy => issue_of_busy hbusy cw a b,
    fun hidle => ⟨_, issue_of_idle hidle cw a b, rfl, rfl, rfl, rfl⟩⟩

/-- Settles O10: after the event the engine is idle, and one idle engine answers like another. -/
theorem resetDropsCommand : Obligations.ResetDropsCommand := by
  intro s
  refine ⟨rfl, rfl, step_of_idle rfl, fun cw a b => ?_⟩
  obtain ⟨hanswer, -⟩ := firstCommandLikeAnyOther s.resetEvent cw a b rfl
  exact hanswer.symm

end Sys2Proof.Machine
end

section
/-! GMUL, GRED, the reduction as a network of XORs and the products by the matrix constants
(spec/40_field_arithmetic.md R111, R112, R115, R116). -/

namespace Sys2Proof.Machine

open Sys2Proof

/-! ### The carry-less product (R111) -/

/-- The bits may be added in any order: XOR is commutative. -/
theorem carrylessProduct_eq_foldl_of_perm (a b : Byte) {l : List Nat} (hperm : l.Perm (List.range 8)) :
    carrylessProduct a b = l.foldl (accumulateBit a b) 0 := by
  have hcomm : RightCommutative (accumulateBit a b) := by
    refine ⟨fun acc k k' => ?_⟩
    unfold accumulateBit
    split_ifs <;> ac_rfl
  exact (hperm.foldl_eq 0).symm

@[simp] theorem zero_multiply (b : Byte) : multiply 0#8 b = 0#8 := by
  have hsplit := multiply_xor_left 0#8 0#8 b
  rwa [BitVec.xor_self, BitVec.xor_self] at hsplit

theorem multiply_zero (b : Byte) : multiply b 0 = 0 := (multiply_comm b 0).trans (zero_multiply b)

@[simp] theorem one_multiply (b : Byte) : multiply 1#8 b = b := (multiply_comm 1 b).trans (multiply_one b)

/-- Settles O25: the response by the contract, `ACC` by the register-level `multiply`, the corner cases from the laws. -/
theorem gmulResult : Obligations.GmulResult := by
  refine ⟨by decide, fun s => exec_responded_of_responseOf rfl, fun w a b => ⟨_, Work.multiply_eq w a b⟩,
    fun a b l hperm => ?anyOrder, fun b => ⟨zero_multiply b, multiply_zero b, multiply_one b, one_multiply b⟩,
    by decide, fun a b => ?bound, by decide, by decide +kernel⟩
  case anyOrder =>
    rw [multiply, carrylessProduct_eq_foldl_of_perm a b hperm]
    rfl
  case bound => exact Nat.le_of_lt_succ (carrylessProduct a b).isLt

/-! ### The reduction loop (R112) -/

/-- A 16-bit value's top bit is at most bit 15. -/
theorem log2_toNat_le (a : BitVec 16) : Nat.log2 a.toNat ≤ 15 := by
  rcases Nat.eq_zero_or_pos a.toNat with hzero | hpos
  · rw [hzero]
    decide
  · exact Nat.le_of_lt_succ ((Nat.log2_lt hpos.ne').mpr a.isLt)

/-- The shifted modulus of a pass fits 16 bits: the pass is the same on the 16-bit word. -/
theorem toNat_xor_shifted_modulus (a : BitVec 16) :
    (a ^^^ ((283 : BitVec 16) <<< (Nat.log2 a.toNat - 8))).toNat = reducePass a.toNat := by
  have hshift : ∀ k ≤ 7, ((283 : BitVec 16) <<< k).toNat = modulus <<< k := by decide
  rw [BitVec.toNat_xor, hshift _ (by have := log2_toNat_le a; omega)]
  rfl

/-- One pass does not change the remainder. -/
theorem divide_eq_divide_pass {a : BitVec 16} (h : 256 ≤ a.toNat) :
    divide a = divide (a ^^^ ((283 : BitVec 16) <<< (Nat.log2 a.toNat - 8))) := by
  have hpass : reducePass a.toNat < 2 ^ (7 + 8) :=
    (reducePass_lt h).trans_le (Nat.pow_le_pow_right (by decide) (log2_toNat_le a))
  apply BitVec.eq_of_toNat_eq
  rw [divide_toNat, divide_toNat, toNat_xor_shifted_modulus, reduceLoop_succ hpass, reduceLoop, if_neg (by omega)]

/-- Settles O26: what the loop's laws say of a pass, of the remainder and of the number of passes. -/
theorem gredResult : Obligations.GredResult := by
  refine ⟨by decide, fun s => exec_responded_of_responseOf rfl, fun a => ⟨fun h => ?small, divide_eq_divide_pass⟩,
    fun a h => ⟨rfl, reducePass_lt h⟩, fun a => reduceLoop_lt, fun a => reduceLoop_lt, ?examples⟩
  case small => rw [divide_toNat, reduceLoop_of_lt h]
  case examples => decide +kernel

/-! ### The XOR network (R115) -/

/-- One input bit of the network: where bit `k` of `a` is set, its reduction is added. -/
def networkBit (a : BitVec 16) (acc : Byte) (k : Nat) : Byte :=
  if a.getLsbD k then acc ^^^ divide ((1 : BitVec 16) <<< k) else acc

/-- The low `n + 1` bits of a 16-bit value are its low `n` bits, with bit `n` added where it is set. -/
theorem setWidth_succ_eq_xor_twoPow (a : BitVec 16) (n : Nat) :
    (a.setWidth (n + 1)).setWidth 16 = (a.setWidth n).setWidth 16 ^^^ if a.getLsbD n then BitVec.twoPow 16 n else 0 := by
  ext i hi
  by_cases hin : i = n
  · subst hin
    cases ha : a[i] <;> simp [ha, BitVec.getLsbD_eq_getElem hi]
  · have hlt : i < n + 1 ↔ i < n := by omega
    cases ha : a.getLsbD n <;> simp [hlt, hin]

theorem divide_zero : divide 0#16 = 0#8 := by decide

theorem divide_low_byte (a : BitVec 16) : divide ((a.setWidth 8).setWidth 16) = a.setWidth 8 := by
  have hlow : ((a.setWidth 8).setWidth 16).toNat < 256 := by simp; omega
  apply BitVec.eq_of_toNat_eq
  rw [divide_toNat, reduceLoop_of_lt hlow]
  simp
  omega

/-- The network on the low `8 + n` bits: each further bit adds its own reduction, because `divide` is linear. -/
theorem divide_setWidth_eq_foldl (a : BitVec 16) (n : Nat) :
    divide ((a.setWidth (8 + n)).setWidth 16) = (List.range' 8 n).foldl (networkBit a) (a.setWidth 8) := by
  induction n with
  | zero => exact divide_low_byte a
  | succ n ih =>
    rw [← Nat.add_assoc, setWidth_succ_eq_xor_twoPow, divide_xor, ih, List.range'_concat, List.foldl_append]
    cases hbit : a.getLsbD (8 + n) <;> simp [networkBit, hbit, divide_zero, BitVec.twoPow]

/-- Settles O28: the eight constants by evaluation, the network from the linearity of `divide`. -/
theorem reductionNetwork : Obligations.ReductionNetwork := by
  refine ⟨by decide +kernel, fun a => ?_⟩
  have hnetwork := divide_setWidth_eq_foldl a 8
  rwa [BitVec.setWidth_eq, BitVec.setWidth_eq] at hnetwork

/-! ### The matrix constants (R116) -/

/-- Doubling shifts, and folds the bit shifted out back in. -/
theorem two_multiply (b : Byte) : multiply 2 b = (b <<< 1) ^^^ (if b.getLsbD 7 then 0x1B else 0) := by
  revert b
  decide +kernel

theorem four_multiply (b : Byte) : multiply 4 b = multiply 2 (multiply 2 b) := by
  rw [← multiply_assoc]
  rfl

theorem eight_multiply (b : Byte) : multiply 8 b = multiply 2 (multiply 2 (multiply 2 b)) := by
  rw [← four_multiply, ← multiply_assoc]
  rfl

/-- Settles O29: each constant is a sum of 1, 2, 4 and 8, and `multiply` distributes over the sum. -/
theorem matrixConstantProducts : Obligations.MatrixConstantProducts := by
  intro b
  refine ⟨one_multiply b, two_multiply b, ?three, ?nine, ?eleven, ?thirteen, ?fourteen⟩
  case three => rw [show (3 : Byte) = 2 ^^^ 1#8 by decide, multiply_xor_left, one_multiply]
  case nine => rw [show (9 : Byte) = 8 ^^^ 1#8 by decide, multiply_xor_left, one_multiply, eight_multiply]
  case eleven =>
    rw [show (11 : Byte) = 8 ^^^ 2 ^^^ 1#8 by decide, multiply_xor_left, multiply_xor_left, one_multiply, eight_multiply]
  case thirteen =>
    rw [show (13 : Byte) = 8 ^^^ 4 ^^^ 1#8 by decide, multiply_xor_left, multiply_xor_left, one_multiply, eight_multiply,
      four_multiply]
  case fourteen =>
    rw [show (14 : Byte) = 8 ^^^ 4 ^^^ 2 by decide, multiply_xor_left, multiply_xor_left, eight_multiply, four_multiply]

end Sys2Proof.Machine
end

section
/-! The lookup commands SBOX, ISBOX, RCON, SHIFT and ISHIFT, and the tables' entries (spec/41_tables.md R131 to R143). -/

namespace Sys2Proof.Machine

open Sys2Proof

/-! ### The two pairs of tables undo each other (R136, R143) -/

@[simp] theorem romInvS_romS (x : Byte) : romInvS (romS x) = x := by
  revert x
  decide +kernel

@[simp] theorem romS_romInvS (y : Byte) : romS (romInvS y) = y := by
  revert y
  decide +kernel

@[simp] theorem romInvShift_romShift (i : BitVec 4) : romInvShift (romShift i) = i := by
  revert i
  decide

@[simp] theorem romShift_romInvShift (i : BitVec 4) : romShift (romInvShift i) = i := by
  revert i
  decide

/-- Settles O31: each composition entry by entry. -/
theorem tablesAreInverse : Obligations.TablesAreInverse :=
  ⟨romInvS_romS, romS_romInvS, romInvShift_romShift, romShift_romInvShift⟩

/-! ### SBOX and ISBOX (R131, R134) -/

/-- The listing of `S` has no complement point (R132). -/
theorem romS_ne_complement (x : Byte) : romS x ≠ x ^^^ 0xFF := by
  revert x
  decide +kernel

/-- Settles O30: the lookups by the contract; the corner cases of `INV_S` are entries of `S` read backwards. -/
theorem substitutionLookups : Obligations.SubstitutionLookups := by
  have hzero : romS 0x00 = 0x63 := by decide
  have hones : romS 0xFF = 0x16 := by decide
  have hworked : romS 0x53 = 0xED := by decide
  have hinvZero : romInvS 0x00 = 0x52 := by decide
  refine ⟨by decide, by decide, fun s => exec_responded_of_responseOf rfl, fun s => exec_responded_of_responseOf rfl,
    hzero, hones, fun x => ⟨romS_ne_self x, romS_ne_complement x⟩, hworked, ?_, hinvZero, ?_, ?_⟩
  · rw [← hzero, romInvS_romS]
  · rw [← hones, romInvS_romS]
  · rw [← hworked, romInvS_romS]

/-! ### RCON (R137, R138) -/

theorem rconIndexLegal_iff {j : BitVec 4} : rconIndexLegal j = true ↔ 1 ≤ j.toNat ∧ j.toNat ≤ 10 := by
  simp [rconIndexLegal]

theorem encode_rcon (j : BitVec 4) : encode (.rcon j) = 0x0005 ||| (j.setWidth 16 <<< 5) := by
  simp [encode, commandWord]

/-- Each entry is twice the one before it, in the field. -/
theorem romRcon_add_two (k : Fin 9) :
    romRcon (k.val + 2) ⟨by omega, by omega⟩ = multiply 2 (romRcon (k.val + 1) ⟨by omega, by omega⟩) := by
  revert k
  decide +kernel

theorem romRcon_succ (j : Nat) (h : 1 ≤ j ∧ j ≤ 9) :
    romRcon (j + 1) ⟨by omega, by omega⟩ = multiply 2 (romRcon j ⟨h.1, by omega⟩) := by
  obtain ⟨k, rfl⟩ := Nat.exists_eq_add_of_le' h.1
  exact romRcon_add_two ⟨k, by omega⟩

/-- Settles O33: a legal index makes a well-formed command, any other the one refusal RCON has of its own. -/
theorem roundConstants : Obligations.RoundConstants := by
  refine ⟨fun j h => ⟨?decoded, fun s => ?completes⟩, fun j h => ?reserved, by decide, romRcon_succ⟩
  case decoded => exact decode_eq_ok_iff.mpr ⟨rconIndexLegal_iff.mpr h, encode_rcon j⟩
  case completes => exact exec_responded_of_responseOf (by simp [responseOf, h])
  case reserved =>
    rw [← encode_rcon, decode_eq_rconIndex_iff]
    simpa [encode] using mt rconIndexLegal_iff.mp h

/-! ### SHIFT and ISHIFT (R140, R142) -/

/-- The closed forms of R141 fix every entry. -/
theorem shift_closed_forms (i : BitVec 4) :
    (romShift i).toNat = i.toNat % 4 + 4 * ((i.toNat / 4 + i.toNat % 4) % 4) ∧
    (romInvShift i).toNat = i.toNat % 4 + 4 * ((i.toNat / 4 + 4 - i.toNat % 4) % 4) ∧
    (romShift i).toNat = 5 * i.toNat % 16 ∧ (romInvShift i).toNat = 13 * i.toNat % 16 := by
  revert i
  decide

/-- Settles O34: rows 0 and 2 follow from the closed forms, since moving by 0 or by 2 columns is the same both ways. -/
theorem shiftLookups : Obligations.ShiftLookups := by
  refine ⟨by decide, by decide, fun s => exec_responded_of_responseOf rfl, fun s => exec_responded_of_responseOf rfl,
    shift_closed_forms, fun i hrow => ?rowZero, fun i hrow => ?rowTwo, by decide, by decide⟩
  case rowZero =>
    obtain ⟨hshift, hinv, -, -⟩ := shift_closed_forms i
    exact ⟨BitVec.eq_of_toNat_eq (by omega), BitVec.eq_of_toNat_eq (by omega)⟩
  case rowTwo =>
    obtain ⟨hshift, hinv, -, -⟩ := shift_closed_forms i
    exact BitVec.eq_of_toNat_eq (by omega)

end Sys2Proof.Machine
end

section
/-! The round transforms: what each makes of an entry or a column of the Block, and that they undo each other
(spec/42_round_transforms.md R161 to R177). -/

namespace Sys2Proof.Machine

open Sys2Proof

/-! ### A Block by its entries (R53) -/

theorem block_ext_entries {x y : Block} (h : ∀ r c : Fin 4, entry x r c = entry y r c) : x = y :=
  block_ext_columns fun c => word_ext fun r => by rw [column_getElem_eq_entry, column_getElem_eq_entry, h]

theorem entry_eq_of_column_eq {x y : Block} {c d : Fin 4} (h : column x c = column y d) (r : Fin 4) :
    entry x r c = entry y r d := by
  rw [← column_getElem_eq_entry, ← column_getElem_eq_entry, h]

/-! ### The permutations of rows (R164, R165) -/

/-- Row `r` moves left by `r` columns. -/
theorem permuteRows_entry (x : Block) (r c : Fin 4) : entry (permuteRows x) r c = entry x r (c + r) := by
  have hmove : ∀ r c : Fin 4,
      (romShift (BitVec.ofFin ⟨r.val + 4 * c.val, by omega⟩)).toNat = r.val + 4 * (c + r).val := by decide
  exact (permuteRows_getElem x ⟨r.val + 4 * c.val, by omega⟩).trans (getElem_congr_idx (hmove r c))

/-- Row `r` moves right by `r` columns. -/
theorem invPermuteRows_entry (x : Block) (r c : Fin 4) : entry (invPermuteRows x) r c = entry x r (c - r) := by
  have hmove : ∀ r c : Fin 4,
      (romInvShift (BitVec.ofFin ⟨r.val + 4 * c.val, by omega⟩)).toNat = r.val + 4 * (c - r).val := by decide
  exact (invPermuteRows_getElem x ⟨r.val + 4 * c.val, by omega⟩).trans (getElem_congr_idx (hmove r c))

@[simp] theorem invPermuteRows_permuteRows (x : Block) : invPermuteRows (permuteRows x) = x :=
  block_ext_entries fun r c => by rw [invPermuteRows_entry, permuteRows_entry, sub_add_cancel]

@[simp] theorem permuteRows_invPermuteRows (x : Block) : permuteRows (invPermuteRows x) = x :=
  block_ext_entries fun r c => by rw [permuteRows_entry, invPermuteRows_entry, add_sub_cancel_right]

/-- Moving every row four times brings it back. -/
theorem permuteRows_four (x : Block) : permuteRows (permuteRows (permuteRows (permuteRows x))) = x := by
  have hback : ∀ r c : Fin 4, c + r + r + r + r = c := by decide
  exact block_ext_entries fun r c => by simp only [permuteRows_entry, hback]

theorem invPermuteRows_eq_permuteRows_three (x : Block) :
    invPermuteRows x = permuteRows (permuteRows (permuteRows x)) := by
  rw [← permuteRows_four (invPermuteRows x), permuteRows_invPermuteRows]

/-- Where all columns are equal, moving a row changes nothing. -/
theorem entry_eq_of_columns_eq {x : Block} (h : ∀ c : Fin 4, column x c = column x 0) (r c d : Fin 4) :
    entry x r c = entry x r d :=
  entry_eq_of_column_eq ((h c).trans (h d).symm) r

/-- Settles O36: the gather form is the definition, the matrix form its entries, and the rest follows. -/
theorem permuteCommands : Obligations.PermuteCommands := by
  refine ⟨by decide, by decide, fun s x hx => ?perm, fun s x hx => ?iperm, fun s hlength => ?wrongLength,
    fun x h => ⟨?fixed, ?invFixed⟩, fun x => ⟨permuteRows_four x, invPermuteRows_eq_permuteRows_three x⟩,
    by decide +kernel, by decide +kernel⟩
  case perm =>
    obtain ⟨t, hexec, hresponded⟩ := exec_responded_of_block (i := .perm) rfl hx
    exact ⟨t, permuteRows x, hexec, hresponded, fun i => permuteRows_getElem x i.toFin, permuteRows_entry x⟩
  case iperm =>
    obtain ⟨t, hexec, hresponded⟩ := exec_responded_of_block (i := .iperm) rfl hx
    exact ⟨t, invPermuteRows x, hexec, hresponded, fun i => invPermuteRows_getElem x i.toFin, invPermuteRows_entry x⟩
  case wrongLength => exact ⟨exec_eq_failed_of_length rfl hlength, exec_eq_failed_of_length rfl hlength⟩
  case fixed => exact block_ext_entries fun r c => (permuteRows_entry x r c).trans (entry_eq_of_columns_eq h ..)
  case invFixed => exact block_ext_entries fun r c => (invPermuteRows_entry x r c).trans (entry_eq_of_columns_eq h ..)

/-! ### Matrix times column (R170 to R174) -/

/-- One entry of a diffusion as the four products of its sum. -/
theorem mixColumns_entry_eq_sum (m : Vector Word 4) (x : Block) (r c : Fin 4) :
    entry (mixColumns m x) r c = multiply m[r][0] (entry x 0 c) ^^^ multiply m[r][1] (entry x 1 c) ^^^
      multiply m[r][2] (entry x 2 c) ^^^ multiply m[r][3] (entry x 3 c) := by
  rw [mixColumns_entry, rowTimesColumn]
  simp only [← column_getElem_eq_entry]
  rfl

/-- The rows of the forward matrix in the spec's numbers (R170). -/
theorem forwardMatrix_eq : forwardMatrix = #v[#v[2, 3, 1, 1], #v[1, 2, 3, 1], #v[1, 1, 2, 3], #v[3, 1, 1, 2]] := by
  decide

/-- The rows of the inverse matrix in the spec's numbers (R172). -/
theorem inverseMatrix_eq :
    inverseMatrix = #v[#v[14, 11, 13, 9], #v[9, 14, 11, 13], #v[13, 9, 14, 11], #v[11, 13, 9, 14]] := by
  decide

/-- A matrix row whose entries add up to 1 keeps a column of four equal bytes. -/
theorem rowTimesColumn_of_sum_eq_one {m v : Word} {b : Byte} (hm : m[0] ^^^ m[1] ^^^ m[2] ^^^ m[3] = 1)
    (hv : ∀ k : Fin 4, v[k.val] = b) : rowTimesColumn m v = b := by
  have hv0 : v[0] = b := hv 0
  have hv1 : v[1] = b := hv 1
  have hv2 : v[2] = b := hv 2
  have hv3 : v[3] = b := hv 3
  rw [rowTimesColumn, hv0, hv1, hv2, hv3, ← multiply_xor_left, ← multiply_xor_left, ← multiply_xor_left, hm]
  exact one_multiply b

/-- A diffusion by such rows keeps a column of four equal bytes. -/
theorem mixColumns_column_of_equal {m : Vector Word 4}
    (hm : ∀ r : Fin 4, m[r][0] ^^^ m[r][1] ^^^ m[r][2] ^^^ m[r][3] = 1)
    {x : Block} {c : Fin 4} (h : ∀ r : Fin 4, entry x r c = entry x 0 c) : column (mixColumns m x) c = column x c := by
  apply word_ext
  intro r
  rw [column_getElem_eq_entry, column_getElem_eq_entry, mixColumns_entry, h r]
  exact rowTimesColumn_of_sum_eq_one (hm r) fun k => by rw [column_getElem_eq_entry, h k]

/-- Settles O37: the entries of the two products, and rows whose entries add up to 1. -/
theorem diffuseCommands : Obligations.DiffuseCommands := by
  refine ⟨by decide, by decide, fun s x hx => ?diff, fun s x hx => ?idiff, ?forwardRows, ?inverseRows,
    fun s hlength => ?wrongLength, fun x c h => ?fixed, by decide +kernel, by decide +kernel, by decide +kernel⟩
  case diff =>
    obtain ⟨t, hexec, hresponded⟩ := exec_responded_of_block (i := .diff) rfl hx
    exact ⟨t, diffuse x, hexec, hresponded, mixColumns_entry_eq_sum forwardMatrix x⟩
  case idiff =>
    obtain ⟨t, hexec, hresponded⟩ := exec_responded_of_block (i := .idiff) rfl hx
    exact ⟨t, invDiffuse x, hexec, hresponded, mixColumns_entry_eq_sum inverseMatrix x⟩
  case forwardRows =>
    rw [forwardMatrix_eq]
    exact ⟨rfl, rfl, rfl, rfl⟩
  case inverseRows =>
    rw [inverseMatrix_eq]
    exact ⟨rfl, rfl, rfl, rfl⟩
  case wrongLength => exact ⟨exec_eq_failed_of_length rfl hlength, exec_eq_failed_of_length rfl hlength⟩
  case fixed => exact ⟨mixColumns_column_of_equal (by decide) h, mixColumns_column_of_equal (by decide) h⟩

/-- Settles O38: the rows of the two matrices in the sums, where a factor 1 disappears. -/
theorem diffuseWrittenOut : Obligations.DiffuseWrittenOut := by
  intro x c
  constructor <;> refine word_ext fun r => ?_
  · rw [column_getElem_eq_entry, diffuse, mixColumns_entry_eq_sum, forwardMatrix_eq]
    fin_cases r <;> simp
  · rw [column_getElem_eq_entry, invDiffuse, mixColumns_entry_eq_sum, inverseMatrix_eq]
    fin_cases r <;> simp

/-! ### The two matrices are inverse, and so are the diffusions (R174) -/

/-- Column `c` of a matrix that is given by its rows. -/
def matrixColumn (n : Vector Word 4) (c : Fin 4) : Word := Vector.ofFn fun k => n[k.val][c.val]

/-- The product of two matrices over the field. -/
def matrixProduct (m n : Vector Word 4) : Vector Word 4 :=
  Vector.ofFn fun r => Vector.ofFn fun c => rowTimesColumn m[r.val] (matrixColumn n c)

def identityMatrix : Vector Word 4 := #v[#v[1, 0, 0, 0], #v[0, 1, 0, 0], #v[0, 0, 1, 0], #v[0, 0, 0, 1]]

theorem identityMatrix_getElem (r c : Fin 4) : identityMatrix[r][c] = if r = c then 1 else 0 := by
  revert r c
  decide

theorem inverseMatrix_mul_forwardMatrix : matrixProduct inverseMatrix forwardMatrix = identityMatrix := by
  decide +kernel

theorem forwardMatrix_mul_inverseMatrix : matrixProduct forwardMatrix inverseMatrix = identityMatrix := by
  decide +kernel

/-- A row times a product of matrix and column is the row of the matrix product times the column: `multiply` is bilinear
and associative. -/
theorem rowTimesColumn_rowTimesColumn (w v : Word) (n : Vector Word 4) :
    rowTimesColumn w (Vector.ofFn fun k => rowTimesColumn n[k.val] v) =
      rowTimesColumn (Vector.ofFn fun c => rowTimesColumn w (matrixColumn n c)) v := by
  simp [rowTimesColumn, matrixColumn, multiply_xor_left, multiply_xor_right, multiply_assoc]
  ac_rfl

/-- One diffusion after another is the diffusion by the product of their matrices. -/
theorem mixColumns_mixColumns (m n : Vector Word 4) (x : Block) :
    mixColumns m (mixColumns n x) = mixColumns (matrixProduct m n) x := by
  refine block_ext_entries fun r c => ?_
  rw [mixColumns_entry, mixColumns_entry, mixColumns_column, rowTimesColumn_rowTimesColumn, matrixProduct,
    Vector.getElem_ofFn]

theorem mixColumns_identityMatrix (x : Block) : mixColumns identityMatrix x = x := by
  refine block_ext_entries fun r c => ?_
  rw [mixColumns_entry_eq_sum, identityMatrix]
  fin_cases r <;> simp

@[simp] theorem invDiffuse_diffuse (x : Block) : invDiffuse (diffuse x) = x := by
  rw [invDiffuse, diffuse, mixColumns_mixColumns, inverseMatrix_mul_forwardMatrix, mixColumns_identityMatrix]

@[simp] theorem diffuse_invDiffuse (x : Block) : diffuse (invDiffuse x) = x := by
  rw [invDiffuse, diffuse, mixColumns_mixColumns, forwardMatrix_mul_inverseMatrix, mixColumns_identityMatrix]

/-- An entry of a matrix product as the four products of its sum. -/
theorem matrixProduct_getElem (m n : Vector Word 4) (r c : Fin 4) :
    (matrixProduct m n)[r][c] = multiply m[r][0] n[0][c] ^^^ multiply m[r][1] n[1][c] ^^^ multiply m[r][2] n[2][c] ^^^
      multiply m[r][3] n[3][c] := by
  simp [matrixProduct, matrixColumn, rowTimesColumn]

/-- Settles O41: the two matrix products are the identity, and a diffusion after the other is the diffusion by their
product. -/
theorem diffusionsAreInverse : Obligations.DiffusionsAreInverse := by
  refine ⟨fun r c => ?_, invDiffuse_diffuse, diffuse_invDiffuse⟩
  rw [← matrixProduct_getElem, ← matrixProduct_getElem, inverseMatrix_mul_forwardMatrix,
    forwardMatrix_mul_inverseMatrix, and_self, identityMatrix_getElem]

/-! ### The substitutions and the key mix (R163, R175, R176) -/

@[simp] theorem invSubstituteBytes_substituteBytes (x : Block) : invSubstituteBytes (substituteBytes x) = x :=
  block_ext fun i => by simp

@[simp] theorem substituteBytes_invSubstituteBytes (x : Block) : substituteBytes (invSubstituteBytes x) = x :=
  block_ext fun i => by simp

@[simp] theorem mixRoundKey_mixRoundKey (x k : Block) : mixRoundKey (mixRoundKey x k) k = x :=
  block_ext fun i => by simp

/-- Settles O40: the substitutions byte by byte from the tables, the permutations entry by entry from the matrix form. -/
theorem transformsAreInverse : Obligations.TransformsAreInverse :=
  ⟨fun x => ⟨invSubstituteBytes_substituteBytes x, substituteBytes_invSubstituteBytes x⟩,
    fun x => ⟨invPermuteRows_permuteRows x, permuteRows_invPermuteRows x⟩, mixRoundKey_mixRoundKey⟩

theorem mixRoundKey_zero (x : Block) : mixRoundKey x (Vector.replicate 16 0) = x :=
  block_ext fun i => by simp

theorem mixRoundKey_self (x : Block) : mixRoundKey x x = Vector.replicate 16 0 :=
  block_ext fun i => by simp

theorem mixRoundKey_comm (x k : Block) : mixRoundKey x k = mixRoundKey k x :=
  block_ext fun i => by simp [BitVec.xor_comm]

/-- Settles O39: the response by the two-operand contract, the corner cases byte by byte. -/
theorem mixkResult : Obligations.MixkResult := by
  refine ⟨by decide, fun s x k hx hk => ?result, fun s => exec_eq_failed_of_lengths rfl,
    fun x k => ⟨mixRoundKey_zero x, mixRoundKey_self x, mixRoundKey_comm x k⟩, by decide +kernel⟩
  case result =>
    obtain ⟨t, hexec, hresponded⟩ := exec_responded_of_blocks (i := .mixk) rfl hx hk
    exact ⟨t, mixRoundKey x k, hexec, hresponded, fun i => mixRoundKey_getElem x k i i.isLt⟩

/-! ### The lanes (R177) -/

/-- The positions `PermuteRows` gathers from; `INV_SHIFT` takes them back. -/
def shiftPerm : Equiv.Perm (Fin 16) where
  toFun i := (romShift (BitVec.ofFin i)).toFin
  invFun i := (romInvShift (BitVec.ofFin i)).toFin
  left_inv i := by simp
  right_inv i := by simp

theorem mixColumns_column_congr (m : Vector Word 4) {x y : Block} {c : Fin 4} (h : column x c = column y c) :
    column (mixColumns m x) c = column (mixColumns m y) c := by
  rw [mixColumns_column, mixColumns_column, h]

/-- Settles O42: each byte, each moved byte and each column by its law. -/
theorem laneStructure : Obligations.LaneStructure := by
  refine ⟨fun x x' k k' i hx hk => ?bytes, ⟨shiftPerm, shiftPerm.symm, fun x i => ?moved⟩,
    fun x x' c h => ⟨mixColumns_column_congr _ h, mixColumns_column_congr _ h⟩⟩
  case bytes =>
    simp only [Fin.getElem_fin] at hx hk ⊢
    simp [hx, hk]
  case moved => exact ⟨permuteRows_getElem x i, invPermuteRows_getElem x i⟩

end Sys2Proof.Machine
end

section
/-! Words and the key schedule: ROTW, SUBW, RESHAPE, and the schedule from one round key to the next
(spec/43_key_schedule.md R191 to R199). -/

namespace Sys2Proof.Machine

open Sys2Proof

/-! ### ROTW and SUBW (R191, R192) -/

theorem rotateLeftByOne_getElem (w : Word) (j : Fin 4) : (rotateLeftByOne w)[j.val] = w[(j + 1).val] := by
  fin_cases j <;> rfl

/-- The rotation moves bytes, the substitution looks at each byte alone. -/
theorem substituteWord_rotateLeftByOne (w : Word) :
    substituteWord (rotateLeftByOne w) = rotateLeftByOne (substituteWord w) :=
  word_ext fun j => by simp only [substituteWord_getElem, rotateLeftByOne_getElem]

theorem rotateLeftByOne_four (w : Word) :
    rotateLeftByOne (rotateLeftByOne (rotateLeftByOne (rotateLeftByOne w))) = w := by
  have hback : ∀ j : Fin 4, j + 1 + 1 + 1 + 1 = j := by decide
  exact word_ext fun j => by simp only [rotateLeftByOne_getElem, hback]

theorem rotateLeftByOne_replicate (b : Byte) : rotateLeftByOne (Vector.replicate 4 b) = Vector.replicate 4 b :=
  word_ext fun j => by simp only [rotateLeftByOne_getElem, Vector.getElem_replicate]

/-- Settles O43: the responses by the contract, the laws of the rotation byte by byte. -/
theorem wordCommands : Obligations.WordCommands := by
  refine ⟨by decide, by decide, fun s => exec_responded_of_responseOf rfl, fun s => ?subw, rotateLeftByOne_replicate,
    fun w => ⟨rotateLeftByOne_four w, substituteWord_rotateLeftByOne w⟩, by decide, by decide, by decide⟩
  case subw =>
    obtain ⟨t, hexec, hresponded⟩ := exec_responded_of_responseOf (i := .subw) (s := s) rfl
    exact ⟨t, substituteWord s.a.word, hexec, hresponded, fun j => substituteWord_getElem _ j j.isLt⟩

/-! ### RESHAPE (R195) -/

/-- Byte `i` of the schedule is byte `i % 16` of round key `i / 16`, which is byte `i % 4` of Word `i / 4`. -/
theorem reshape_byte (words : Words44) {i : Nat} (hi : i < 176) :
    ((reshape words)[i / 16])[i % 16] = (words[i / 4])[i % 4] := by
  have hword : 4 * (i / 16) + i % 16 / 4 = i / 4 := by omega
  have hbyte : i % 16 % 4 = i % 4 := by omega
  simp [reshape, roundKeyOf, hword, hbyte]

theorem flatten_toList_eq_flatMap {α : Type} {m n : Nat} (v : Vector (Vector α n) m) :
    v.flatten.toList = v.toList.flatMap fun b => b.toList := by
  obtain ⟨xs, rfl⟩ := v
  simp only [Vector.flatten_mk, Vector.toList_mk, Array.toList_flatten, Array.toList_map, List.map_map, List.flatMap_def]
  rfl

/-- The 176 bytes of a schedule are those of its Words, in the same order. -/
theorem reshape_bytes (words : Words44) :
    (reshape words).toList.flatMap (fun b => b.toList) = words.toList.flatMap fun w => w.toList := by
  rw [← flatten_toList_eq_flatMap, ← flatten_toList_eq_flatMap]
  refine List.ext_getElem (by simp) fun i hi _ => ?_
  have hi : i < 176 := by simpa using hi
  rw [Vector.getElem_toList, Vector.getElem_toList, Vector.getElem_flatten (n := 11) hi,
    Vector.getElem_flatten (n := 44) hi, reshape_byte words hi]

/-- Settles O45: the register-level RESHAPE answers `reshape` of its operand; the bytes by their positions. -/
theorem reshapeResult : Obligations.ReshapeResult := by
  refine ⟨by decide, fun s => ?result, by decide +kernel⟩
  obtain ⟨t, hexec, hresponded⟩ := exec_responded_of_responseOf (i := .reshape) (s := s) rfl
  refine ⟨t, reshape s.a.words44, hexec, hresponded, fun r j k => ?bytes, ?sameBytes⟩
  case bytes =>
    have hkey : (reshape s.a.words44)[r] = roundKeyOf s.a.words44 r := by simp [reshape]
    rw [hkey]
    exact roundKeyOf_getElem s.a.words44 r j k
  case sameBytes => exact reshape_bytes s.a.words44

/-- Settles O46: the first four Words of the expansion are the key's columns. -/
theorem roundKeyZeroIsKey : Obligations.RoundKeyZeroIsKey :=
  fun key => ⟨rfl, schedule_getElem_zero key⟩

/-! ### From one round key to the next (R199) -/

/-- Column `j` of round key `r` is Word `4r + j` of the expanded key. -/
theorem schedule_column (key : Block) (r : Nat) (hr : r < 11) (j : Fin 4) :
    column (schedule key)[r] j = (expand key)[4 * r + j.val] := by
  rw [schedule_getElem key r hr, roundKeyOf_column]

/-- The first column of a round key: the recurrence at an index that is a multiple of 4. -/
theorem schedule_column_zero (key : Block) (r : Nat) (h : 1 ≤ r ∧ r ≤ 10) :
    column (schedule key)[r] 0 = xorWord (column (schedule key)[r - 1] 0)
      (xorFirstByte (substituteWord (rotateLeftByOne (column (schedule key)[r - 1] 3))) (romRcon r h)) := by
  have hrec := expand_getElem key ⟨4 * r, by omega, by omega⟩
  have hsame : 4 * (r - 1) = 4 * r - 4 := by omega
  have hlast : 4 * r - 4 + 3 = 4 * r - 1 := by omega
  simpa [schedule_column, scheduleTemp, hsame, hlast] using hrec

/-- The other columns: the recurrence at the indices between. -/
theorem schedule_column_succ (key : Block) (r : Nat) (h : 1 ≤ r ∧ r ≤ 10) (j : Fin 3) :
    column (schedule key)[r] j.succ =
      xorWord (column (schedule key)[r - 1] j.succ) (column (schedule key)[r] j.castSucc) := by
  have hrec := expand_getElem key ⟨4 * r + (j.val + 1), by omega, by omega⟩
  have hsame : 4 * (r - 1) + (j.val + 1) = 4 * r + (j.val + 1) - 4 := by omega
  have hbetween : ¬ (4 * r + (j.val + 1)) % 4 = 0 := by omega
  have hbefore : 4 * r + (j.val + 1) - 1 = 4 * r + j.val := by omega
  rw [scheduleTemp, if_neg hbetween] at hrec
  simpa only [schedule_column, Fin.val_succ, Fin.val_castSucc, hsame, hbefore] using hrec

/-- Settles O48: R193's recurrence at the four indices of a round key. -/
theorem blockRecurrence : Obligations.BlockRecurrence :=
  fun key r h => ⟨schedule_column_zero key r h, schedule_column_succ key r h 0, schedule_column_succ key r h 1,
    schedule_column_succ key r h 2⟩

end Sys2Proof.Machine
end

section
/-! The cipher: the named states of an encryption, a decryption walking back through them, PROUND, and commands run one
after another on the ports (spec/44_cipher_engine.md R220 to R229; spec/30_encoding.md R95). -/

namespace Sys2Proof.Machine

open Sys2Proof

/-! ### The named states of an encryption (R221) -/

theorem encState_succ (rk : Sched) (plain : Block) {r : Nat} (h : r < 9) :
    encState rk plain (r + 1) (by omega) = forwardRound (encState rk plain r (by omega)) rk[r + 1] := by
  have hmiddle : r + 1 ≠ 10 := by omega
  rw [encState, if_neg hmiddle]

theorem encState_ten (rk : Sched) (plain : Block) :
    encState rk plain 10 (by decide) = finalRound (encState rk plain 9 (by decide)) rk[10] := rfl

/-- `e[r]` for any `r`, standing still after round 10. -/
def encStateAt (rk : Sched) (plain : Block) (r : Nat) : Block := encState rk plain (min r 10) (Nat.min_le_right r 10)

theorem encStateAt_of_le (rk : Sched) (plain : Block) {r : Nat} (h : r ≤ 10) :
    encStateAt rk plain r = encState rk plain r h := by
  simp only [encStateAt, Nat.min_eq_left h]

theorem encStateAt_of_middle (rk : Sched) (plain : Block) {r : Nat} (h : 1 ≤ r ∧ r ≤ 9) :
    encStateAt rk plain r = forwardRound (encStateAt rk plain (r - 1)) rk[r] := by
  obtain ⟨r, rfl⟩ := Nat.exists_eq_add_of_le' h.1
  rw [Nat.add_sub_cancel, encStateAt_of_le rk plain (r := r + 1) (by omega),
    encStateAt_of_le rk plain (r := r) (by omega)]
  exact encState_succ rk plain (by omega)

/-! ### A decryption walks back through them (R224) -/

/-- A round of DEC undoes a round of ENC under the same round key, up to the two byte-wise layers of the round before. -/
theorem inverseRound_forwardRound (st k : Block) :
    inverseRound (permuteRows (substituteBytes (forwardRound st k))) k = permuteRows (substituteBytes st) := by
  simp [inverseRound, forwardRound]

/-- `d[r + 1]` is the state of encryption round `r + 1` just before its Diffuse, counted down from `d[10]`. -/
theorem decState_encrypt_succ (rk : Sched) (plain : Block) (rounds r : Nat) (h : rounds + r = 9) :
    decState rk (encState rk plain 10 (by decide)) (r + 1) =
      permuteRows (substituteBytes (encState rk plain r (by omega))) := by
  induction rounds generalizing r with
  | zero =>
    obtain rfl : r = 9 := by omega
    rw [decState_ten, encState_ten, finalRound, mixRoundKey_mixRoundKey]
  | succ rounds ih =>
    rw [decState_of_middle _ _ (by omega), ih (r + 1) (by omega), encState_succ _ _ (by omega),
      inverseRound_forwardRound]

theorem decState_encrypt_zero (rk : Sched) (plain : Block) :
    decState rk (encState rk plain 10 (by decide)) 0 = plain := by
  rw [decState_zero, decState_encrypt_succ rk plain 9 0 rfl]
  simp [inverseFinalRound, encState]

/-- Settles O52: round `r` of the decryption undoes round `r` of the encryption. -/
theorem decryptWalksBack : Obligations.DecryptWalksBack := by
  refine fun plain key => ⟨fun r h => ?_, decState_encrypt_zero (schedule key) plain⟩
  obtain ⟨r, rfl⟩ := Nat.exists_eq_add_of_le' h.1
  exact decState_encrypt_succ (schedule key) plain (9 - r) r (by omega)

/-! ### The round trip (R225) -/

theorem decrypt_encrypt (plain key : Block) : decrypt (encrypt plain key) key = plain :=
  decState_encrypt_zero (schedule key) plain

theorem finite_block : Finite Block :=
  Finite.of_injective (fun (x : Block) (i : Fin 16) => x[i.val]) fun _ _ h => block_ext (congrFun h)

/-- Encrypting under one key is injective on a finite set of Blocks, so decrypting undoes it on either side. -/
theorem encrypt_decrypt (cipher key : Block) : encrypt (decrypt cipher key) key = cipher := by
  have := finite_block
  have hleft : Function.LeftInverse (decrypt · key) (encrypt · key) := fun plain => decrypt_encrypt plain key
  have honto : Function.Surjective (encrypt · key) := Finite.injective_iff_surjective.mp hleft.injective
  exact hleft.rightInverse_of_surjective honto cipher

/-- The known answer of spec/95_test_vectors.md section 8, first triple; a full encryption is slow to evaluate, so it is
done once. -/
theorem encrypt_knownAnswer :
    encrypt (hexBlock 0x3243f6a8885a308d313198a2e0370734) (hexBlock 0x2b7e151628aed2a6abf7158809cf4f3c) =
      hexBlock 0x3925841d02dc09fbdc118597196a0b32 := by
  decide +kernel

/-- The worked example of R220, which is that of R223 read backwards. -/
theorem encrypt_workedExample :
    encrypt (hexBlock 0x00112233445566778899aabbccddeeff) (hexBlock 0x000102030405060708090a0b0c0d0e0f) =
      hexBlock 0x69c4e0d86a7b0430d8cdb78070b4c55a := by
  rw [← decrypt_workedExample, encrypt_decrypt]

/-- Settles O53: one direction from R224, the other by finiteness; each known answer is evaluated in one direction. -/
theorem cipherRoundTrip : Obligations.CipherRoundTrip := by
  refine ⟨decrypt_encrypt, encrypt_decrypt, encrypt_knownAnswer, ?_, encrypt_workedExample, decrypt_workedExample⟩
  rw [← encrypt_knownAnswer, decrypt_encrypt]

/-- Settles O50: the response by the two-operand contract, with `encStateAt` as the named values. -/
theorem encResult : Obligations.EncResult := by
  refine ⟨by decide, fun s plain key hplain hkey => ?result, fun s => exec_eq_failed_of_lengths rfl, fun key => ?equal,
    encrypt_workedExample⟩
  case result =>
    obtain ⟨t, hexec, hresponded⟩ := exec_responded_of_blocks (i := .enc) rfl hplain hkey
    exact ⟨t, encStateAt (schedule key) plain, hexec, hresponded, rfl, fun r h => encStateAt_of_middle _ plain h, rfl,
      rfl⟩
  case equal => rw [schedule_getElem_zero, mixRoundKey_self]

/-! ### PROUND (R226, R227, R229) -/

theorem encode_pround (round : BitVec 4) (sel : RoundSelector) :
    encode (.pround round sel) =
      0x0016 ||| (round.setWidth 16 <<< 5) ||| ((selectorCode sel).setWidth 16 <<< 9) := rfl

/-- Each selector leaves out its transform; round 10 has no Diffuse (R227). -/
theorem partialRound_eq (st key : Block) (round : BitVec 4) (h : 1 ≤ round.toNat ∧ round.toNat ≤ 10)
    (sel : RoundSelector) :
    let k (x : Block) := mixRoundKey x (schedule key)[round.toNat]
    let df (x : Block) := if round = 10 then x else diffuse x
    partialRound st key round.toNat h sel = match sel with
      | .full => k (df (permuteRows (substituteBytes st)))
      | .omitSub => k (df (permuteRows st))
      | .omitPerm => k (df (substituteBytes st))
      | .omitDiff => k (permuteRows (substituteBytes st))
      | .omitKey => df (permuteRows (substituteBytes st)) := by
  have hten : round.toNat = 10 ↔ round = 10 := (BitVec.toNat_eq (y := 10)).symm
  by_cases hlast : round = 10 <;> cases sel <;> simp [partialRound, hten, hlast]

/-- Settles O55: the response by the two-operand contract, with the round test and the selectors written out. -/
theorem proundResult : Obligations.ProundResult := by
  refine ⟨fun round sel => decode_eq_ok_iff.mpr ⟨rfl, encode_pround round sel⟩,
    fun s st key round h sel hst hkey => ?result, fun s round sel => exec_eq_failed_of_lengths rfl,
    fun s st key round sel hst hkey => ?wrongRound, by decide +kernel, by decide +kernel⟩
  case result =>
    obtain ⟨t, hexec, hresponded⟩ := exec_responded_of_blocks (i := .pround round sel) rfl hst hkey
    rw [dif_pos h, partialRound_eq] at hresponded
    exact ⟨t, hexec, hresponded⟩
  case wrongRound =>
    exact exec_pround_eq_failed_of_round sel (length_of_eq_toList hst) (length_of_eq_toList hkey)

/-- With FULL, rounds 1..9 are cipher rounds and round 10 is the last one (R229). -/
theorem partialRound_full (st key : Block) {round : Nat} (h : 1 ≤ round ∧ round ≤ 10) :
    partialRound st key round h .full =
      if round = 10 then finalRound st (schedule key)[round] else forwardRound st (schedule key)[round] := by
  by_cases hlast : round = 10 <;> simp [partialRound, finalRound, forwardRound, hlast]

theorem encState_succ_eq_partialRound (plain key : Block) {r : Nat} (h : r < 10) :
    encState (schedule key) plain (r + 1) h =
      partialRound (encState (schedule key) plain r (by omega)) key (r + 1) ⟨by omega, h⟩ .full := by
  rw [partialRound_full, encState]
  split_ifs with hlast
  · simp only [hlast]
  · rfl

/-- The states of an encryption are the full rounds done one after another from `e[0]`. -/
theorem encState_eq_foldl (plain key : Block) (n : Nat) (h : n ≤ 10) :
    encState (schedule key) plain n h = (List.finRange n).foldl
      (fun st k => fullRound st key (k.val + 1) ⟨by omega, by omega⟩) (mixRoundKey plain (schedule key)[0]) := by
  induction n with
  | zero => rfl
  | succ n ih =>
    rw [encState_succ_eq_partialRound plain key h, ih (by omega), List.finRange_succ_last, List.foldl_append,
      List.foldl_map]
    rfl

/-- Settles O56: `e[0]` is the key mix because round key 0 is the key. -/
theorem tenFullRoundsEncrypt : Obligations.TenFullRoundsEncrypt := by
  refine fun plain key => ⟨fun r h => ?_, ?_, encState_eq_foldl plain key 10 le_rfl⟩
  · obtain ⟨r, rfl⟩ := Nat.exists_eq_add_of_le' h.1
    exact (encState_succ_eq_partialRound plain key (by omega)).symm
  · rw [encState, schedule_getElem_zero]

/-! ### Commands one after another on the ports (R95, R312) -/

/-- A legal command in flight responds in one step. -/
theorem step_responded {s : State} (hbusy : s.inFlight = true) {i : Instr} (hdecode : decode s.cw = .ok i) {r : Response}
    (hr : responseOf i s.a s.b = some r) : ∃ t, step s = .next t ∧ Responded s t r := by
  rw [step_of_decode_eq_ok hbusy hdecode]
  exact exec_responded_of_responseOf hr

/-- A command issued on an idle engine answers the contract's response of its operands, and the engine is idle again. -/
theorem runCommand_responded {s : State} (hidle : s.inFlight = false) {i : Instr} {cw : CommandWord}
    (hdecode : decode cw = .ok i) {a : PortA} {b : PortB} {r : Response} (hr : responseOf i a b = some r) :
    ∃ t, runCommand s cw a b = .next t ∧ t.response = some r ∧ t.inFlight = false := by
  rw [runCommand_of_idle hidle]
  obtain ⟨t, hstep, hresponse, hdone, -⟩ := step_responded
    (s := { s with inFlight := true, cw := cw, a := a, b := b, response := none }) rfl hdecode hr
  exact ⟨t, hstep, hresponse, hdone⟩

theorem responseOf_of_block {a : PortA} {x : Block} (hx : a.block = x.toList) (f : Block → Result) :
    some (blockResponse a.block f) = some (.ok (f x)) := by
  rw [hx, blockResponse_toList]

theorem responseOf_of_blocks {a : PortA} {b : PortB} {x y : Block} (hx : a.block = x.toList) (hy : b.block = y.toList)
    (f : Block → Block → Response) : some (blocksResponse a.block b.block f) = some (f x y) := by
  rw [hx, hy, blocksResponse_toList]

/-- Settles O49: each command of the expansion answers its contract on an idle engine. -/
theorem pseudoCommands : Obligations.PseudoCommands := by
  refine ⟨rfl, fun _ => rfl, fun s a b key hidle hkey => ?ksched, fun s a b st key r h hidle hst hkey => ?fround⟩
  case ksched =>
    obtain ⟨t, hrun, hresponse, hdone⟩ := runCommand_responded hidle (i := .expand) (decode_encode rfl) (b := b)
      (responseOf_of_block hkey _)
    obtain ⟨u, hrun', hresponse', -⟩ := runCommand_responded hdone (i := .reshape) (decode_encode rfl)
      (a := loadA a (.words44 (expand key))) (b := b) rfl
    exact ⟨t, u, expand key, hrun, hresponse, hrun', hresponse'⟩
  case fround =>
    obtain ⟨t, hrun, hresponse, -⟩ := runCommand_responded hidle (i := .pround r .full) (decode_encode rfl)
      (responseOf_of_blocks hst hkey _)
    rw [dif_pos h] at hresponse
    exact ⟨t, hrun, hresponse⟩

/-- Settles O54: the second command's operand is the first one's result, and decrypting it gives the plaintext back. -/
theorem encThenDecOnThePorts : Obligations.EncThenDecOnThePorts := by
  intro s a b plain key hidle hplain hkey
  obtain ⟨t, hrun, hresponse, hdone⟩ := runCommand_responded hidle (i := .enc) (cw := 0x0014) (by decide)
    (responseOf_of_blocks hplain hkey _)
  obtain ⟨u, hrun', hresponse', -⟩ := runCommand_responded hdone (i := .dec) (cw := 0x0015) (by decide)
    (responseOf_of_blocks (loadA_block a (encrypt plain key)) hkey _)
  rw [decrypt_encrypt] at hresponse'
  exact ⟨t, u, .block (encrypt plain key), hrun, hresponse, hrun', hresponse'⟩

end Sys2Proof.Machine
end

section
/-! The codec both ways, and the places of bytes and bits on the ports (spec/45_boundary_codec.md R253;
spec/20_memory.md R56). -/

namespace Sys2Proof.Machine

open Sys2Proof

/-! ### PARSE and RENDER undo each other (R253) -/

/-- The characters of a string are those of its bytes. -/
theorem bitString_ext {v u : Vector BitChar 128}
    (h : ∀ (i : Fin 16) (k : Fin 8), v[8 * i.val + k.val] = u[8 * i.val + k.val]) : v = u := by
  ext1 j hj
  have hj' := h ⟨j / 8, by omega⟩ ⟨j % 8, by omega⟩
  simpa only [Nat.div_add_mod] using hj'

theorem byte_ext {x y : Byte} (h : ∀ k : Fin 8, x.getLsbD (7 - k.val) = y.getLsbD (7 - k.val)) : x = y := by
  refine BitVec.eq_of_getLsbD_eq fun j hj => ?_
  have hj' := h ⟨7 - j, by omega⟩
  rwa [show 7 - (7 - j) = j by omega] at hj'

theorem digitChar_cases (bit : Bool) : digitChar bit = .zero ∨ digitChar bit = .one := by
  cases bit
  · exact .inl rfl
  · exact .inr rfl

@[simp] theorem decide_digitChar_eq_one (bit : Bool) : decide (digitChar bit = .one) = bit := by
  cases bit <;> rfl

theorem digitChar_decide_eq_one {c : BitChar} (h : c = .zero ∨ c = .one) : digitChar (decide (c = .one)) = c := by
  rcases h with rfl | rfl <;> rfl

theorem renderBits_digits (b : Block) : ∀ c ∈ (renderBits b).toList, c = .zero ∨ c = .one := by
  intro c hc
  obtain ⟨j, hj, rfl⟩ := Vector.mem_iff_getElem.mp (Vector.mem_toList_iff.mp hc)
  simpa only [renderBits, Vector.getElem_ofFn] using digitChar_cases _

theorem parseBits_renderBits (b : Block) : parseBits (renderBits b).toList = some b := by
  rw [parseBits_toList (renderBits_digits b), Option.some.injEq]
  refine block_ext fun i => byte_ext fun k => ?_
  rw [Vector.getElem_ofFn, parseByte_getLsbD, renderBits_getElem, decide_digitChar_eq_one]
  rfl

/-- What PARSE accepts is 128 digits, and it makes their bytes of them. -/
theorem parseBits_eq_some {l : List BitChar} {b : Block} (h : parseBits l = some b) :
    ∃ v : Vector BitChar 128, l = v.toList ∧ (∀ c ∈ v.toList, c = .zero ∨ c = .one) ∧
      b = Vector.ofFn (parseByte v) := by
  have hnone : ¬ (l.length ≠ 128 ∨ ∃ c ∈ l, c ≠ .zero ∧ c ≠ .one) := by
    rw [← parseBits_eq_none_iff, h]
    simp
  push Not at hnone
  obtain ⟨hlength, hdigits⟩ := hnone
  have hdigits : ∀ c ∈ l, c = .zero ∨ c = .one := fun c hc => or_iff_not_imp_left.mpr (hdigits c hc)
  refine ⟨⟨l.toArray, by simpa using hlength⟩, rfl, hdigits, ?_⟩
  have hparse := parseBits_toList (v := ⟨l.toArray, by simpa using hlength⟩) hdigits
  exact Option.some.inj (h.symm.trans hparse)

theorem renderBits_parseByte {v : Vector BitChar 128} (h : ∀ c ∈ v.toList, c = .zero ∨ c = .one) :
    renderBits (Vector.ofFn (parseByte v)) = v := by
  refine bitString_ext fun i k => ?_
  rw [renderBits_getElem, Fin.getElem_fin, Vector.getElem_ofFn, parseByte_getLsbD]
  exact digitChar_decide_eq_one (h _ (Vector.mem_toList_iff.mpr (Vector.getElem_mem _)))

/-- Settles O59: bit by bit one way, character by character the other. -/
theorem codecRoundTrip : Obligations.CodecRoundTrip := by
  refine ⟨parseBits_renderBits, fun l b h => ?_⟩
  obtain ⟨v, rfl, hdigits, rfl⟩ := parseBits_eq_some h
  rw [renderBits_parseByte hdigits]

/-! ### The ports (R56) -/

theorem blockPort_extractLsb' (b : Block) (i : Fin 16) : (blockPort b).extractLsb' (120 - 8 * i.val) 8 = b[i] := by
  unfold blockPort
  fin_cases i <;> simp (disch := omega) only [BitVec.extractLsb'_append_eq_of_le, BitVec.extractLsb'_append_eq_of_add_le,
    BitVec.extractLsb'_eq_self, Nat.reduceMul, Nat.reduceSub, Fin.getElem_fin]

theorem wordPort_extractLsb' (w : Word) (j : Fin 4) : (wordPort w).extractLsb' (24 - 8 * j.val) 8 = w[j] := by
  unfold wordPort
  fin_cases j <;> simp (disch := omega) only [BitVec.extractLsb'_append_eq_of_le, BitVec.extractLsb'_append_eq_of_add_le,
    BitVec.extractLsb'_eq_self, Nat.reduceMul, Nat.reduceSub, Fin.getElem_fin]

theorem blockPort_getLsbD (b : Block) (i : Fin 16) (k : Fin 8) :
    (blockPort b).getLsbD (120 - 8 * i.val + k.val) = (b[i]).getLsbD k.val := by
  rw [← blockPort_extractLsb', BitVec.getLsbD_extractLsb', decide_eq_true k.isLt, Bool.true_and]

/-- The image read from its top bit is the rendered string read from its first character. -/
theorem renderBits_eq_getMsbD (b : Block) (j : Fin 128) :
    (renderBits b)[j] = digitChar ((blockPort b).getMsbD j.val) := by
  have hplace : 120 - 8 * (j.val / 8) + (7 - j.val % 8) = 128 - 1 - j.val := by omega
  have hbit := blockPort_getLsbD b ⟨j.val / 8, by omega⟩ ⟨7 - j.val % 8, by omega⟩
  rw [hplace] at hbit
  rw [BitVec.getMsbD, decide_eq_true j.isLt, Bool.true_and, hbit]
  simp [renderBits]

/-- Settles O60: the bits of the image are those of its bytes, and the characters are digits of the bits. -/
theorem portImages : Obligations.PortImages :=
  ⟨blockPort_extractLsb', blockPort_getLsbD, renderBits_eq_getMsbD, wordPort_extractLsb'⟩

end Sys2Proof.Machine
end
